-- ==== Sys2Proof/Word.lean ====
section
/-! DEFINITION. The widths of the FCU's data path (R8, R20, R50) as bit-vector types. -/

namespace Sys2Proof

/-- A frame byte, operand byte or byte of the host port (R8). -/
abbrev Byte := BitVec 8

/-- A 32-bit lane vector (R8): bit `k` is lane `k`, which is channel `k + 1` (R80). -/
abbrev Lanes := BitVec 32

/-- A host-port offset, 6 bits (R8, R50). -/
abbrev Offset := BitVec 6

/-- A 4-bit register field: STATUS.CODE, RXLEN.LEN, RESP_LEN (R20). -/
abbrev Nibble := BitVec 4

/-- The payload of a frame: `K_PAYLOAD_LEN` = 4 bytes in wire order (R7, R26, R31). -/
abbrev Payload := Vector Byte 4

/-- A frame or frame buffer: `K_FRAME_LEN` = 8 bytes, byte 0 first on the wire (R7, R10, R74). -/
abbrev Frame := Vector Byte 8

end Sys2Proof
end

