-- ==== Sys2Proof/Config.lean ====
section
/-! DEFINITION. What is fixed for one FCU: the constants of R7 and the open straps of R6. -/

namespace Sys2Proof

/-! The constants of R7.  UNVERIFIED: the source's numeric literals are "unaudited"
(93_implementation_defined.md section 3); the spec takes each at the source's value.
Unsafe, log 9. -/

/-- `K_FRAME_LEN`: the length of a request frame and of a confirmed response (R7, R74). -/
abbrev Config.kFrameLen : Nat := 8

/-- `K_MIN_RESP`: the protocol minimum of a response (R7, R77). -/
abbrev Config.kMinResp : Nat := 4

/-- `K_EXC_LEN`: the length of an exception reply (R7, R76). -/
abbrev Config.kExcLen : Nat := 5

/-- `K_EXC_FLAG`: the bit an exception reply sets in the function code (R7, R76). -/
abbrev Config.kExcFlag : Byte := 0x80

/-- `K_SILENT_COUNT`: how many function codes are silent (R7, R78). -/
abbrev Config.kSilentCount : Nat := 9

/-- `K_DEFAULT_BRANCHES`: the least branch count (R7, R34). -/
abbrev Config.kDefaultBranches : Nat := 8

/-- `K_MAX_BRANCHES`: the greatest branch count (R7, R34). -/
abbrev Config.kMaxBranches : Nat := 32

/-- The four configuration straps, the values on `cfg_header`, `cfg_slave_id`, `cfg_branch_count`
and `cfg_silent_base` when reset samples them (R6, R33). -/
structure Straps where
  header : Byte
  slaveId : Byte
  branchCount : Byte
  silentBase : Byte
  deriving DecidableEq, Repr

/-- `P_HEADER`: OPEN (R6, D6). -/
opaque Config.pHeader : Byte

/-- `P_SLAVE_ID`: OPEN (R6, D7). -/
opaque Config.pSlaveId : Byte

/-- `P_BRANCH_COUNT`: OPEN, the raw count before the clamp (R6, D8). -/
opaque Config.pBranchCount : Byte

/-- `P_SILENT_BASE`: OPEN (R6, D9). -/
opaque Config.pSilentBase : Byte

/-- The straps that `State.reset` samples.  DESIGN CHOICE: a later reset samples the straps that
come with it.  Safe, log 4. -/
def Config.straps : Straps :=
  ⟨Config.pHeader, Config.pSlaveId, Config.pBranchCount, Config.pSilentBase⟩

end Sys2Proof
end

