-- ==== Sys2Proof/Syntax.lean ====
section
/-! DEFINITION. The FCU's commands: one constructor per row of spec/opcode_table.json (R70, R71). -/

namespace Sys2Proof

/-- A command.  None has an operand: "there are no sub-fields, no register fields and no immediates" (R70). -/
inductive Instr where
  /-- NOP, op 0x00: no operation (R100). -/
  | nop
  /-- ENC, op 0x01: encode FC_IN and PAYLOAD_IN into TXBUF (R101). -/
  | enc
  /-- DEC, op 0x02: decode and validate RXBUF into RX_FC and RX_PAYLOAD (R102). -/
  | dec
  /-- VSL, op 0x03: verify the response's slave id against the request's (R103). -/
  | vsl
  /-- CLS, op 0x04: classify the response and compute RESP_LEN (R104). -/
  | cls
  /-- PCK, op 0x05: pack LANES_IN into PAYLOAD_IN (R130). -/
  | pck
  /-- UNP, op 0x06: unpack RX_PAYLOAD into LANES_OUT (R131). -/
  | unp
  deriving DecidableEq, Repr

end Sys2Proof
end

