-- ==== Sys2Proof/WellFormed.lean ====
section
/-! DEFINITION. What is checked of an instruction, of a table word and of a strap setting. -/

namespace Sys2Proof

/-- Every command is well formed: it has no operand that could be out of range (R70). -/
def Instr.wf : Instr → Bool
  | .nop => true
  | .enc => true
  | .dec => true
  | .vsl => true
  | .cls => true
  | .pck => true
  | .unp => true

/-- A command word is exactly one byte (R70: "Every command is exactly one byte"). -/
def wordWf (nbits w : Nat) : Bool :=
  nbits == 8 && decide (w < 256)

/-- The strap setting leaves room for all nine silent codes.  R78: a SILENT_BASE above 0xF7 "does not
match the source's '9 codes'; it is accepted and not corrected", so nothing in the machine asks for
this check.  DESIGN CHOICE: such a strap is not refused.  Safe, log 8. -/
def Straps.fullSilentRange (st : Straps) : Bool :=
  decide (st.silentBase.toNat ≤ 0xF7)

end Sys2Proof
end

