-- ==== Sys2Proof/Decode.lean ====
section
/-! DEFINITION. The command opcode map of R71, the decoder read from it, and the encoder. -/

namespace Sys2Proof

/-- Why a command byte is refused by the decoder. -/
inductive DecodeError where
  /-- The byte is outside the opcode map, 0x07 to 0xFF (R72). -/
  | illegalCommand (op : Byte)
  deriving DecidableEq, Repr

/-- A row of the opcode map: an op byte belongs to it when `op &&& mask = value`. -/
structure OpcodeRow where
  mask : Byte
  value : Byte
  instr : Instr
  deriving DecidableEq, Repr

/-- The command opcode map (R71: "The mask is 0xFF for every row"). -/
def opcodeMap : List OpcodeRow :=
  [⟨0xFF, 0b00000000, .nop⟩,
   ⟨0xFF, 0b00000001, .enc⟩,
   ⟨0xFF, 0b00000010, .dec⟩,
   ⟨0xFF, 0b00000011, .vsl⟩,
   ⟨0xFF, 0b00000100, .cls⟩,
   ⟨0xFF, 0b00000101, .pck⟩,
   ⟨0xFF, 0b00000110, .unp⟩]

/-- Does the op byte belong to the row? -/
def OpcodeRow.accepts (r : OpcodeRow) (op : Byte) : Bool :=
  op &&& r.mask == r.value

/-- Decode the byte written to CMD: total, and every byte outside the map is refused by name
(R71, R72). -/
def decode (op : Byte) : Except DecodeError Instr :=
  match opcodeMap.find? (fun r => r.accepts op) with
  | some r => .ok r.instr
  | none => .error (.illegalCommand op)

/-- The command word of an instruction, from the same table (R71). -/
def encode : Instr → Byte
  | .nop => 0x00
  | .enc => 0x01
  | .dec => 0x02
  | .vsl => 0x03
  | .cls => 0x04
  | .pck => 0x05
  | .unp => 0x06

/-- The instruction the decoder reads from a table word.  A table row has 8 bits (R70).
DESIGN CHOICE: a word that is not one byte is no command.  Safe, log 10. -/
def decodeTableWord (nbits w : Nat) : Option Instr :=
  if wordWf nbits w then
    match decode (BitVec.ofNat 8 w) with
    | .ok i => some i
    | .error _ => none
  else none

end Sys2Proof
end

