-- ==== Sys2Proof/Machine/Operands.lean ====
section
/-! DEFINITION. The values commands compute: checksum, byte and lane order, masks, the silent range,
the branch clamp.  Nothing here reads the machine's state. -/

namespace Sys2Proof.Machine

/-- `be32(b0,b1,b2,b3)`: `b0` is the earliest byte and the most significant (R11). -/
def be32 (b0 b1 b2 b3 : Byte) : Lanes :=
  b0 ++ b1 ++ b2 ++ b3

/-- `be24(b0,b1,b2)` (R11). -/
def be24 (b0 b1 b2 : Byte) : BitVec 24 :=
  b0 ++ b1 ++ b2

/-- `cks(F)`: the sum of the first seven bytes, computed in unbounded integers and truncated to
8 bits (R13, R75, R106). -/
def cks (f : Frame) : Byte :=
  BitVec.ofNat 8
    (f[0].toNat + f[1].toNat + f[2].toNat + f[3].toNat + f[4].toNat + f[5].toNat + f[6].toNat)

/-- The request frame of R74 and R101: header, slave id, function code, payload, checksum. -/
def mkFrame (header slaveId fc : Byte) (p : Payload) : Frame :=
  #v[header, slaveId, fc, p[0], p[1], p[2], p[3],
     cks #v[header, slaveId, fc, p[0], p[1], p[2], p[3], 0]]

/-- The payload field of a frame: bytes 3 to 6 (R74, R102, C2). -/
def framePayload (f : Frame) : Payload :=
  #v[f[3], f[4], f[5], f[6]]

/-- The four bytes of a lane vector, most significant first (R35, R56, R57). -/
def lanesToBytes (l : Lanes) : Payload :=
  #v[l.extractLsb' 24 8, l.extractLsb' 16 8, l.extractLsb' 8 8, l.extractLsb' 0 8]

/-- The lane vector of four bytes, `W = be32(p[0], p[1], p[2], p[3])` (R57, R80). -/
def bytesToLanes (p : Payload) : Lanes :=
  be32 p[0] p[1] p[2] p[3]

/-- A lane vector with byte `j` (byte 0 is bits 31:24) replaced (R35, R53). -/
def setLaneByte (l : Lanes) (j : Fin 4) (b : Byte) : Lanes :=
  bytesToLanes ((lanesToBytes l).set j.val b)

/-- `lowmask(N)`: `2^N - 1` as a 32-bit value (41_channel_vector.md). -/
def lowmask (n : BitVec 6) : Lanes :=
  BitVec.ofNat 32 (2 ^ n.toNat - 1)

/-- `is_silent(fc)`: `SILENT_BASE <= fc <= SILENT_BASE + 8`, compared as unbounded integers, with no
wrap at 0xFF (R78). -/
def isSilent (silentBase fc : Byte) : Bool :=
  decide (silentBase.toNat ≤ fc.toNat) &&
    decide (fc.toNat ≤ silentBase.toNat + (Config.kSilentCount - 1))

/-- `expected_length(fc)`: 0 for a silent code, 8 for every other (R105). -/
def expectedLength (silentBase fc : Byte) : Nat :=
  if isSilent silentBase fc then 0 else Config.kFrameLen

/-- The branch clamp to 8..32 of the raw strap (R34). -/
def clampBranch (s : Byte) : BitVec 6 :=
  if s.toNat < Config.kDefaultBranches then BitVec.ofNat 6 Config.kDefaultBranches
  else if s.toNat > Config.kMaxBranches then BitVec.ofNat 6 Config.kMaxBranches
  else s.setWidth 6

end Sys2Proof.Machine
end

