-- ==== Sys2Proof/Machine/Flags.lean ====
section
/-! DEFINITION. The FCU's only flag, STATUS.CODE (R37): its values (R24) and the conditions under
which a command raises each error code (R151). -/

namespace Sys2Proof.Machine

/-! The values of STATUS.CODE (R24). -/

abbrev StatusCode.ok : Nibble := 0x0
abbrev StatusCode.payloadTooLarge : Nibble := 0x1
abbrev StatusCode.frameTooShort : Nibble := 0x2
abbrev StatusCode.checksumMismatch : Nibble := 0x3
abbrev StatusCode.slaveIdMismatch : Nibble := 0x4
abbrev StatusCode.responseTooShort : Nibble := 0x5
abbrev StatusCode.malformedResponse : Nibble := 0x6
abbrev StatusCode.exceptionResponse : Nibble := 0x7
abbrev StatusCode.desync : Nibble := 0x8
abbrev StatusCode.channelOutOfRange : Nibble := 0x9
abbrev StatusCode.illegalCommand : Nibble := 0xE
abbrev StatusCode.idle : Nibble := 0xF

/-- The codes that the FCU produces; 0x1 and 0x6 are reserved and 0xA to 0xD never occur (R24). -/
def StatusCode.produced : List Nibble :=
  [StatusCode.ok, StatusCode.frameTooShort, StatusCode.checksumMismatch,
   StatusCode.slaveIdMismatch, StatusCode.responseTooShort, StatusCode.exceptionResponse,
   StatusCode.desync, StatusCode.channelOutOfRange, StatusCode.illegalCommand, StatusCode.idle]

/-- FRAME_TOO_SHORT: "RXLEN < 8" (R151); a LEN of 9 to 15 is read as 8 bytes present (R29). -/
def frameTooShort (len : Nibble) : Bool :=
  decide (len.toNat < Config.kFrameLen)

/-- CHECKSUM_MISMATCH: byte 7 is not the checksum of bytes 0 to 6 (R75, R151). -/
def checksumMismatch (f : Frame) : Bool :=
  f[7] != cks f

/-- RESPONSE_TOO_SHORT: "RXLEN < 4" (R151). -/
def responseTooShort (len : Nibble) : Bool :=
  decide (len.toNat < Config.kMinResp)

/-- SLAVE_ID_MISMATCH: byte 1 of the response differs from byte 1 of the request (R103, R151, C1). -/
def slaveIdMismatch (response request : Frame) : Bool :=
  response[1] != request[1]

/-- The success echo: byte 2 of the response is the request's function code (R77, R104). -/
def successEcho (response request : Frame) : Bool :=
  response[2] == request[2]

/-- The exception reply: byte 2 of the response is the request's function code with the exception
flag (R76, R104). -/
def exceptionReply (response request : Frame) : Bool :=
  response[2] == request[2] ||| Config.kExcFlag

/-- CHANNEL_OUT_OF_RANGE: some lane at or above `N` is set, `(L & ~lowmask(N)) != 0` (R130, R151). -/
def channelOutOfRange (l : Lanes) (n : BitVec 6) : Bool :=
  l &&& ~~~(lowmask n) != 0

end Sys2Proof.Machine
end

