-- ==== Sys2Proof/Machine/State.lean ====
section
/-! DEFINITION. The state of the FCU: the registers of R20, and the model's own record of the host
port (the accesses still to come and the byte the host last read). -/

namespace Sys2Proof.Machine

/-- What the outside does to the FCU in one step (R14, R40, R180). -/
inductive HostAccess where
  /-- A host read of one byte, `MemRead(off, 1)` (R12). -/
  | read (off : Offset)
  /-- A host write of one byte, `MemWrite(off, 1, data)` (R12). -/
  | write (off : Offset) (data : Byte)
  /-- `rst` is asserted; the straps carry these values (R33, R180). -/
  | reset (straps : Straps)
  deriving DecidableEq, Repr

/-- The machine.  Every field down to `silentBase` is a register of R20; the last two are the model's
own. -/
structure State where
  /-- STATUS.CODE, bits 3:0 of offset 0x01 (R23). -/
  status : Nibble
  /-- FC_IN (R25). -/
  fcIn : Byte
  /-- PAYLOAD_IN[0..3] (R26). -/
  payloadIn : Payload
  /-- TXBUF[0..7] (R27). -/
  txbuf : Frame
  /-- RXBUF[0..7] (R28). -/
  rxbuf : Frame
  /-- RXLEN.LEN (R29). -/
  rxlen : Nibble
  /-- RX_FC (R30). -/
  rxFc : Byte
  /-- RX_PAYLOAD[0..3] (R31). -/
  rxPayload : Payload
  /-- RESP_LEN (R32). -/
  respLen : Nibble
  /-- LANES_IN (R35). -/
  lanesIn : Lanes
  /-- LANES_OUT (R36). -/
  lanesOut : Lanes
  /-- HEADER (R33). -/
  header : Byte
  /-- SLAVE_ID (R33). -/
  slaveId : Byte
  /-- BRANCH_COUNT, a 6-bit field (R33, R34). -/
  branchCount : BitVec 6
  /-- SILENT_BASE (R33). -/
  silentBase : Byte
  /-- The host accesses and reset assertions still to come, the next one first.  DESIGN CHOICE: the
  model's own input queue.  Safe, log 1. -/
  pending : List HostAccess
  /-- The byte that the most recent host read returned (on `rdata[7:0]`, R12, R40), none before the first
  read: a record of what the host has received, not of the pins.  DESIGN CHOICE: the model's own record.
  Safe, log 3. -/
  lastRead : Option Byte
  deriving DecidableEq, Repr

/-- The faults of the machine: there is none.  "No access faults" (R58), "The FCU never traps and
never transfers control" (R153); an error is a STATUS code (R150).  DEDUCED, log 7. -/
inductive Fault where
  deriving DecidableEq, Repr

/-- The refusals of the machine. -/
inductive Refusal where
  /-- Raised by an arm of `exec` whose instruction has no meaning yet; no arm raises it in this
  model.  Safe: the machine would stop where the hardware goes on. -/
  | notModelled (mnemonic : String)
  deriving DecidableEq, Repr

/-- The state after a reset that samples the given straps (R39, R181).  `pending` and `lastRead` are the
model's own (DESIGN CHOICE, logs 1 and 3). -/
def State.resetWith (st : Straps) : State where
  status := StatusCode.idle
  fcIn := 0x00
  payloadIn := #v[0, 0, 0, 0]
  txbuf := #v[0, 0, 0, 0, 0, 0, 0, 0]
  rxbuf := #v[0, 0, 0, 0, 0, 0, 0, 0]
  rxlen := 0
  rxFc := 0x00
  rxPayload := #v[0, 0, 0, 0]
  respLen := 0
  lanesIn := 0x00000000
  lanesOut := 0x00000000
  header := st.header
  slaveId := st.slaveId
  branchCount := clampBranch st.branchCount
  silentBase := st.silentBase
  pending := []
  lastRead := none

/-- The machine right after reset, for the open straps of the configuration (R6, R39, R181). -/
def State.reset : State :=
  State.resetWith Config.straps

end Sys2Proof.Machine
end

