-- ==== Sys2Proof/Machine/Ops.lean ====
section
/-! DEFINITION. The named operations over the state: ending a command with a STATUS code, reset, the
register map of the host port with its byte read and byte store, and the lane outputs. -/

namespace Sys2Proof.Machine

/-! ### How a command ends (R12)

The FCU takes no exception: "It writes no fault address, no saved instruction and no other register"
(R150), and there is no return (R154).  What stands in the place of exception entry is `raise`. -/

/-- `raise Status(CODE)`: STATUS takes the code and the operation ends; nothing else is written
(R12, R153). -/
def State.raise (code : Nibble) (s : State) : State :=
  { s with status := code }

/-- `finish(CODE)`: STATUS takes the code at the normal end of an operation (R12). -/
def State.finish (code : Nibble) (s : State) : State :=
  { s with status := code }

/-! ### Reset -/

/-- One assertion of `rst`: it "replaces the whole FCU state with the reset state" (R180, R181).
DESIGN CHOICE: what the host still has to do and the byte it last read are the host's, and stay.
Safe, logs 1 and 3. -/
def State.applyReset (st : Straps) (s : State) : State :=
  { State.resetWith st with pending := s.pending, lastRead := s.lastRead }

/-! ### The register map of the host port (R51) -/

/-- A byte of the register map.  Byte 0 of a lane register is its bits 31:24 (R35, R36). -/
inductive Reg where
  | cmd
  | status
  | fcIn
  | rxlen
  | payloadIn (j : Fin 4)
  | txbuf (j : Fin 8)
  | rxbuf (j : Fin 8)
  | rxFc
  | respLen
  | branchCount
  | header
  | slaveId
  | silentBase
  | rxPayload (j : Fin 4)
  | lanesIn (j : Fin 4)
  | lanesOut (j : Fin 4)
  deriving DecidableEq, Repr

/-- The offset of a register byte (R51). -/
def Reg.offset : Reg → Offset
  | .cmd => 0x00
  | .status => 0x01
  | .fcIn => 0x02
  | .rxlen => 0x03
  | .payloadIn j => 0x04 + BitVec.ofNat 6 j.val
  | .txbuf j => 0x08 + BitVec.ofNat 6 j.val
  | .rxbuf j => 0x10 + BitVec.ofNat 6 j.val
  | .rxFc => 0x18
  | .respLen => 0x19
  | .branchCount => 0x1A
  | .header => 0x1B
  | .slaveId => 0x1C
  | .silentBase => 0x1D
  | .rxPayload j => 0x20 + BitVec.ofNat 6 j.val
  | .lanesIn j => 0x24 + BitVec.ofNat 6 j.val
  | .lanesOut j => 0x28 + BitVec.ofNat 6 j.val

/-- The address map read by offset number; `none` at a reserved offset (R51, R52). -/
def locateNat (n : Nat) : Option Reg :=
  if n = 0x00 then some .cmd
  else if n = 0x01 then some .status
  else if n = 0x02 then some .fcIn
  else if n = 0x03 then some .rxlen
  else if h : 0x04 ≤ n ∧ n ≤ 0x07 then some (.payloadIn ⟨n - 0x04, by omega⟩)
  else if h : 0x08 ≤ n ∧ n ≤ 0x0F then some (.txbuf ⟨n - 0x08, by omega⟩)
  else if h : 0x10 ≤ n ∧ n ≤ 0x17 then some (.rxbuf ⟨n - 0x10, by omega⟩)
  else if n = 0x18 then some .rxFc
  else if n = 0x19 then some .respLen
  else if n = 0x1A then some .branchCount
  else if n = 0x1B then some .header
  else if n = 0x1C then some .slaveId
  else if n = 0x1D then some .silentBase
  else if h : 0x20 ≤ n ∧ n ≤ 0x23 then some (.rxPayload ⟨n - 0x20, by omega⟩)
  else if h : 0x24 ≤ n ∧ n ≤ 0x27 then some (.lanesIn ⟨n - 0x24, by omega⟩)
  else if h : 0x28 ≤ n ∧ n ≤ 0x2B then some (.lanesOut ⟨n - 0x28, by omega⟩)
  else none

/-- The register byte at an offset, `none` where the offset is reserved (R51, R52). -/
def locate (o : Offset) : Option Reg :=
  locateNat o.toNat

/-- What a host read of a register byte returns: CMD reads 0x00 (R22), and the reserved bits of
STATUS, RXLEN, RESP_LEN and BRANCH_COUNT read 0 (R55). -/
def readReg (s : State) : Reg → Byte
  | .cmd => 0x00
  | .status => s.status.setWidth 8
  | .fcIn => s.fcIn
  | .rxlen => s.rxlen.setWidth 8
  | .payloadIn j => s.payloadIn[j.val]
  | .txbuf j => s.txbuf[j.val]
  | .rxbuf j => s.rxbuf[j.val]
  | .rxFc => s.rxFc
  | .respLen => s.respLen.setWidth 8
  | .branchCount => s.branchCount.setWidth 8
  | .header => s.header
  | .slaveId => s.slaveId
  | .silentBase => s.silentBase
  | .rxPayload j => s.rxPayload[j.val]
  | .lanesIn j => (lanesToBytes s.lanesIn)[j.val]
  | .lanesOut j => (lanesToBytes s.lanesOut)[j.val]

/-- What a host write stores: read-only registers ignore it (R55), RXLEN keeps bits 3:0 (R29), CMD
stores nothing (R22; running the command is `runCommand`). -/
def writeReg (s : State) (v : Byte) : Reg → State
  | .cmd => s
  | .status => s
  | .fcIn => { s with fcIn := v }
  | .rxlen => { s with rxlen := v.setWidth 4 }
  | .payloadIn j => { s with payloadIn := s.payloadIn.set j.val v }
  | .txbuf _ => s
  | .rxbuf j => { s with rxbuf := s.rxbuf.set j.val v }
  | .rxFc => s
  | .respLen => s
  | .branchCount => s
  | .header => s
  | .slaveId => s
  | .silentBase => s
  | .rxPayload _ => s
  | .lanesIn j => { s with lanesIn := setLaneByte s.lanesIn j v }
  | .lanesOut _ => s

/-- `MemRead(off, 1)`: the byte a host read returns; a reserved offset reads 0x00 (R52, R53). -/
def memRead (s : State) (o : Offset) : Byte :=
  match locate o with
  | some r => readReg s r
  | none => 0x00

/-- The storing half of `MemWrite(off, 1, v)`: a write to a reserved offset "is ignored and changes no
state" (R52). -/
def store (s : State) (o : Offset) (v : Byte) : State :=
  match locate o with
  | some r => writeReg s v r
  | none => s

/-! ### The output ports (R36) -/

/-- `lane_out[31:0]`, driven from LANES_OUT at all times (R36). -/
def laneOut (s : State) : Lanes :=
  s.lanesOut

/-- `lane_valid[31:0]`: bit `k` is 1 exactly when `k < BRANCH_COUNT` (R36, D29). -/
def laneValid (s : State) : Lanes :=
  lowmask s.branchCount

/-- The state of channel `i`, numbered from 1: `LANES_OUT[i-1]` (R134). -/
def channelOn (s : State) (i : Nat) : Bool :=
  s.lanesOut.getLsbD (i - 1)

end Sys2Proof.Machine
end

