-- ==== Sys2Proof/Machine/ChannelVector.lean ====
section
/-! DEFINITION. The meanings of PCK and UNP (41_channel_vector.md). -/

namespace Sys2Proof.Machine

/-- PCK: a lane at or above BRANCH_COUNT is refused by STATUS; otherwise the four bytes of LANES_IN go
to PAYLOAD_IN, most significant first (R130). -/
def execPck (s : State) : Host.Outcome State Fault Refusal :=
  .next (
    if channelOutOfRange s.lanesIn s.branchCount then s.raise StatusCode.channelOutOfRange
    else State.finish StatusCode.ok { s with payloadIn := lanesToBytes s.lanesIn })

/-- UNP: the big-endian word of RX_PAYLOAD, masked by the branch count, goes to LANES_OUT (R131). -/
def execUnp (s : State) : Host.Outcome State Fault Refusal :=
  .next (State.finish StatusCode.ok
    { s with lanesOut := bytesToLanes s.rxPayload &&& lowmask s.branchCount })

end Sys2Proof.Machine
end

