-- ==== Sys2Proof/Machine/FrameCodec.lean ====
section
/-! DEFINITION. The meanings of NOP, ENC, DEC, VSL and CLS (40_frame_codec.md). -/

namespace Sys2Proof.Machine

/-- NOP: "No register is read or written, STATUS included" (R100). -/
def execNop (s : State) : Host.Outcome State Fault Refusal :=
  .next s

/-- ENC: the frame of HEADER, SLAVE_ID, FC_IN and PAYLOAD_IN goes to TXBUF; STATUS is OK (R101). -/
def execEnc (s : State) : Host.Outcome State Fault Refusal :=
  .next (State.finish StatusCode.ok
    { s with txbuf := mkFrame s.header s.slaveId s.fcIn s.payloadIn })

/-- DEC: the length is checked first, then the checksum; a frame that passes gives RX_FC and
RX_PAYLOAD (R102, R152). -/
def execDec (s : State) : Host.Outcome State Fault Refusal :=
  .next (
    if frameTooShort s.rxlen then s.raise StatusCode.frameTooShort
    else if checksumMismatch s.rxbuf then s.raise StatusCode.checksumMismatch
    else State.finish StatusCode.ok
      { s with rxFc := s.rxbuf[2], rxPayload := framePayload s.rxbuf })

/-- VSL: the length is checked first, then byte 1 of the response against byte 1 of the request
(R103, R152, C1). -/
def execVsl (s : State) : Host.Outcome State Fault Refusal :=
  .next (
    if responseTooShort s.rxlen then s.raise StatusCode.responseTooShort
    else if slaveIdMismatch s.rxbuf s.txbuf then s.raise StatusCode.slaveIdMismatch
    else s.finish StatusCode.ok)

/-- CLS: a silent request expects no response; otherwise the length, then byte 2 of the response:
success echo, exception reply or desynchronised, in that order (R104, R152, R88). -/
def execCls (s : State) : Host.Outcome State Fault Refusal :=
  .next (
    if expectedLength s.silentBase s.txbuf[2] = 0 then
      State.finish StatusCode.ok { s with respLen := 0 }
    else if responseTooShort s.rxlen then s.raise StatusCode.responseTooShort
    else if successEcho s.rxbuf s.txbuf then
      State.finish StatusCode.ok { s with respLen := BitVec.ofNat 4 Config.kFrameLen }
    else if exceptionReply s.rxbuf s.txbuf then
      State.finish StatusCode.exceptionResponse { s with respLen := BitVec.ofNat 4 Config.kExcLen }
    else s.raise StatusCode.desync)

end Sys2Proof.Machine
end

