-- ==== Sys2Proof/Machine/Dispatch.lean ====
section
/-! DEFINITION. The meaning of each command, one arm per constructor of Instr. -/

namespace Sys2Proof.Machine

def exec (i : Instr) (s : State) : Host.Outcome State Fault Refusal :=
  match i with
  | .nop => Sys2Proof.Machine.execNop s
  | .enc => Sys2Proof.Machine.execEnc s
  | .dec => Sys2Proof.Machine.execDec s
  | .vsl => Sys2Proof.Machine.execVsl s
  | .cls => Sys2Proof.Machine.execCls s
  | .pck => Sys2Proof.Machine.execPck s
  | .unp => Sys2Proof.Machine.execUnp s

end Sys2Proof.Machine
end

