-- ==== Sys2Proof/Machine/Command.lean ====
section
/-! DEFINITION. One host access: running the command a CMD write selects, a register write, a read, a
reset; and a sequence of accesses in the host's order. -/

namespace Sys2Proof.Machine

/-- Run the command that the byte written to CMD selects.  A byte outside the opcode map performs
`raise Status(ILLEGAL_COMMAND)`, and no operand is read (R22, R71, R72, R152). -/
def runCommand (op : Byte) (s : State) : Host.Outcome State Fault Refusal :=
  match decode op with
  | .ok i => exec i s
  | .error (.illegalCommand _) => .next (s.raise StatusCode.illegalCommand)

/-- `MemWrite(off, 1, v)`: a write to CMD runs one command, any other write only stores (R54). -/
def memWrite (o : Offset) (v : Byte) (s : State) : Host.Outcome State Fault Refusal :=
  if o = Reg.offset .cmd then runCommand v s else .next (store s o v)

/-- One access, one atomic step of the model (R14, R180). -/
def perform (a : HostAccess) (s : State) : Host.Outcome State Fault Refusal :=
  match a with
  | .read o => .next { s with lastRead := some (memRead s o) }
  | .write o v => memWrite o v s
  | .reset st => .next (s.applyReset st)

/-- Accesses one after the other, in the order the host issues them (R59). -/
def performAll : List HostAccess → State → Host.Outcome State Fault Refusal
  | [], s => .next s
  | a :: rest, s =>
    match perform a s with
    | .next t => performAll rest t
    | .fault r => .fault r
    | .refused r => .refused r

/-- The access that a CMD write of the byte is (R22, R86: `ENC` encodes as `W 00 01`). -/
def cmdWrite (op : Byte) : HostAccess :=
  .write (Reg.offset .cmd) op

end Sys2Proof.Machine
end

