-- ==== Sys2Proof/Machine/Step.lean ====
section
/-! DEFINITION. One step of the machine: the next host access. -/

namespace Sys2Proof.Machine

/-- One step: the next access is taken from the front of `pending` and performed (R14, R59).  With no
access to come the FCU holds its state (R161).  DEDUCED, safe, log 2. -/
def step (s : State) : Host.Outcome State Fault Refusal :=
  match s.pending with
  | [] => .next s
  | a :: rest => perform a { s with pending := rest }

/-- The state whose next access writes the command byte to CMD; the FCU fetches nothing, so this is
where its next instruction comes from (R22, R61).  DESIGN CHOICE, safe, log 1. -/
def State.withFetchWord (s : State) (nbits w : Nat) : State :=
  { s with pending := cmdWrite (BitVec.ofNat 8 (w % 2 ^ nbits)) :: s.pending }

end Sys2Proof.Machine
end

