-- ==== Sys2Proof/Machine/HostNotation.lean ====
section
/-! DEFINITION. The notation of host programs (R86) with its pseudo-instructions (R87): a line, the
accesses it expands to, and a program run line by line.  The FCU sees the accesses only. -/

namespace Sys2Proof.Machine

/-- A `<target>`: a register name or a hexadecimal offset (R86). -/
inductive Target where
  | reg (r : Reg)
  | off (o : Offset)
  deriving DecidableEq, Repr

/-- The offset a target names (R86, R51). -/
def Target.offset : Target → Offset
  | .reg r => r.offset
  | .off o => o

/-- A line of a host program (R86, R87). -/
inductive HostLine where
  /-- `WR <target>, <byte>` (R86). -/
  | wr (t : Target) (v : Byte)
  /-- `RD <target>` (R86). -/
  | rd (t : Target)
  /-- `<MNEMONIC>`, which means `WR CMD, <op>` (R86). -/
  | command (i : Instr)
  /-- `WR32 LANES_IN, v` (R87). -/
  | wr32 (v : Lanes)
  /-- `WRPAY b0 b1 b2 b3` (R87). -/
  | wrpay (p : Payload)
  /-- `WRRX b0 ... b(n-1)` with n at most 8 (R87). -/
  | wrrx (bs : List Byte)
  /-- `LOOPBACK`: each TXBUF byte is read and written to RXBUF, then RXLEN is 8 (R87). -/
  | loopback
  /-- `BST <code>, <label>`: read STATUS and branch on its code; a label is a line number (R87). -/
  | bst (code : Nibble) (label : Nat)
  /-- `HALT` (R87). -/
  | halt
  deriving DecidableEq, Repr

/-- A line is well formed: WRRX has at most 8 bytes (R87), and a BST label is a line of the program of
`n` lines. -/
def HostLine.wf (n : Nat) : HostLine → Bool
  | .wr _ _ => true
  | .rd _ => true
  | .command i => i.wf
  | .wr32 _ => true
  | .wrpay _ => true
  | .wrrx bs => decide (bs.length ≤ 8)
  | .loopback => true
  | .bst _ label => decide (label < n)
  | .halt => true

/-- Bytes written to RXBUF from index `j` on (R87). -/
def rxWrites (j : Nat) : List Byte → List HostAccess
  | [] => []
  | b :: bs => .write (0x10 + BitVec.ofNat 6 j) b :: rxWrites (j + 1) bs

/-- The copy of LOOPBACK: `RD TXBUF<j>` gives v, then `WR RXBUF<j>, v` (R87). -/
def copyTx (tx : Frame) (j : Fin 8) : List HostAccess :=
  [.read (Reg.offset (.txbuf j)), .write (Reg.offset (.rxbuf j)) tx[j.val]]

/-- The accesses a line expands to, begun in state `s` (R86, R87).  DESIGN CHOICE: the bytes LOOPBACK
writes are those its own reads return, taken from TXBUF at the start of the line, which no access of the
line changes.  Safe, log 12. -/
def HostLine.expand (s : State) : HostLine → List HostAccess
  | .wr t v => [.write t.offset v]
  | .rd t => [.read t.offset]
  | .command i => [cmdWrite (encode i)]
  | .wr32 v =>
    [.write (Reg.offset (.lanesIn 0)) (v.extractLsb' 24 8),
     .write (Reg.offset (.lanesIn 1)) (v.extractLsb' 16 8),
     .write (Reg.offset (.lanesIn 2)) (v.extractLsb' 8 8),
     .write (Reg.offset (.lanesIn 3)) (v.extractLsb' 0 8)]
  | .wrpay p =>
    [.write (Reg.offset (.payloadIn 0)) p[0], .write (Reg.offset (.payloadIn 1)) p[1],
     .write (Reg.offset (.payloadIn 2)) p[2], .write (Reg.offset (.payloadIn 3)) p[3]]
  | .wrrx bs => rxWrites 0 bs ++ [.write (Reg.offset .rxlen) (BitVec.ofNat 8 bs.length)]
  | .loopback =>
    copyTx s.txbuf 0 ++ copyTx s.txbuf 1 ++ copyTx s.txbuf 2 ++ copyTx s.txbuf 3 ++
    copyTx s.txbuf 4 ++ copyTx s.txbuf 5 ++ copyTx s.txbuf 6 ++ copyTx s.txbuf 7 ++
    [.write (Reg.offset .rxlen) 0x08]
  | .bst _ _ => [.read (Reg.offset .status)]
  | .halt => []

/-- Perform the accesses of one line. -/
def runLine (l : HostLine) (s : State) : Host.Outcome State Fault Refusal :=
  performAll (l.expand s) s

/-- Lines one after the other. -/
def runLines : List HostLine → State → Host.Outcome State Fault Refusal
  | [], s => .next s
  | l :: ls, s =>
    match runLine l s with
    | .next t => runLines ls t
    | .fault r => .fault r
    | .refused r => .refused r

/-- The line the host goes on with after line number `pc`, `t` being the state after the line's accesses:
BST compares bits 3:0 of the byte it read, HALT ends the program (R87). -/
def HostLine.nextLine (pc : Nat) (t : State) : HostLine → Option Nat
  | .bst code label =>
    if t.lastRead.map (fun b => b.setWidth 4) = some code then some label else some (pc + 1)
  | .halt => none
  | .wr _ _ => some (pc + 1)
  | .rd _ => some (pc + 1)
  | .command _ => some (pc + 1)
  | .wr32 _ => some (pc + 1)
  | .wrpay _ => some (pc + 1)
  | .wrrx _ => some (pc + 1)
  | .loopback => some (pc + 1)

/-- At most `fuel` lines of a host program from line `at?` on.  DESIGN CHOICE: a program that runs off
its last line has ended, as after HALT.  Safe, log 12. -/
def runProgram (prog : List HostLine) :
    Nat → Option Nat → State → Host.Outcome State Fault Refusal
  | 0, _, s => .next s
  | _ + 1, none, s => .next s
  | fuel + 1, some pc, s =>
    match prog[pc]? with
    | none => .next s
    | some l =>
      match runLine l s with
      | .next t => runProgram prog fuel (l.nextLine pc t) t
      | .fault r => .fault r
      | .refused r => .refused r

end Sys2Proof.Machine
end

