-- ==== Sys2Proof/Machine/Protocol.lean ====
section
/-! DEFINITION. Encoding facts of the relay protocol that the host programs against: the names of the
function codes and their plan (R79), the payload layouts (R81 to R84), the group mask (R133). -/

namespace Sys2Proof.Machine

/-- The closed list of function-code names (R79). -/
inductive FcName where
  | readStatus
  | onOne | offOne | flipOne
  | onGroup | offGroup | flipGroup
  | onPoint | offPoint
  | onOneNil | offOneNil | flipOneNil
  | onGroupNil | offGroupNil | flipGroupNil
  | onPointNil | offPointNil
  | runAllNil
  deriving DecidableEq, Repr

/-- The "silent" column of R79. -/
def FcName.silent : FcName → Bool
  | .readStatus => false
  | .onOne => false
  | .offOne => false
  | .flipOne => false
  | .onGroup => false
  | .offGroup => false
  | .flipGroup => false
  | .onPoint => false
  | .offPoint => false
  | .onOneNil => true
  | .offOneNil => true
  | .flipOneNil => true
  | .onGroupNil => true
  | .offGroupNil => true
  | .flipGroupNil => true
  | .onPointNil => true
  | .offPointNil => true
  | .runAllNil => true

/-- The payload layouts named in R79. -/
inductive PayloadLayout where
  /-- The request payload of READ_STATUS, "not in source" (R79, N6). -/
  | notInSource
  /-- R81. -/
  | one
  /-- R82. -/
  | group
  /-- R83. -/
  | point
  /-- R84. -/
  | runAll
  deriving DecidableEq, Repr

/-- The "payload layout" column of R79. -/
def FcName.layout : FcName → PayloadLayout
  | .readStatus => .notInSource
  | .onOne => .one
  | .offOne => .one
  | .flipOne => .one
  | .onGroup => .group
  | .offGroup => .group
  | .flipGroup => .group
  | .onPoint => .point
  | .offPoint => .point
  | .onOneNil => .one
  | .offOneNil => .one
  | .flipOneNil => .one
  | .onGroupNil => .group
  | .offGroupNil => .group
  | .flipGroupNil => .group
  | .onPointNil => .point
  | .offPointNil => .point
  | .runAllNil => .runAll

/-- `P_FC` is OPEN: a model takes it "as a parameter, an injective map", constrained only by the silent
names' place in the range of R78 (R79, D10).  DESIGN CHOICE: claims quantify over every such map.
Safe, log 5. -/
def FcMapValid (pFc : FcName → Byte) (silentBase : Byte) : Prop :=
  Function.Injective pFc ∧ ∀ n, n.silent = true → isSilent silentBase (pFc n) = true

/-- One-channel operations: payload `{0,0,0,i}` (R81). -/
def onePayload (i : Byte) : Payload :=
  #v[0, 0, 0, i]

/-- Point operations: `{t_ms>>16, t_ms>>8, t_ms, i}` (R83).  DESIGN CHOICE: the duration is an argument
of 24 bits, for the source does not say what becomes of a longer one.  Safe, log 11. -/
def pointPayload (tMs : BitVec 24) (i : Byte) : Payload :=
  #v[tMs.extractLsb' 16 8, tMs.extractLsb' 8 8, tMs.extractLsb' 0 8, i]

/-- Run-all: `{0xff}*4` turns all channels on, `{0}*4` turns them all off (R84). -/
def runAllPayload (on : Bool) : Payload :=
  if on then #v[0xFF, 0xFF, 0xFF, 0xFF] else #v[0, 0, 0, 0]

/-- `group_mask(S)`: index `k` sets lane `k`; a repeated index counts once (R82, R133, C3).  DEDUCED: an index is
below 32, for a lane vector has no other lane.  Safe, log 13. -/
def groupMask : List (Fin 32) → Lanes
  | [] => 0
  | k :: ks => BitVec.twoPow 32 k.val ||| groupMask ks

/-- Group operations: the mask's four bytes, big-endian (R80, R82). -/
def groupPayload (ks : List (Fin 32)) : Payload :=
  lanesToBytes (groupMask ks)

end Sys2Proof.Machine
end

