-- ==== Sys2Proof/Safety.lean ====
section
/-! DEFINITION. What holds of the FCU's state at all times after reset, in the terms claims use. -/

namespace Sys2Proof.Machine

/-- "The register holds a value in 8..32 at all times after reset" (R34). -/
abbrev State.branchLegal (s : State) : Prop :=
  8 ≤ s.branchCount.toNat ∧ s.branchCount.toNat ≤ 32

/-- RESP_LEN is 0, 5 or 8: "No other value is ever written" (R32). -/
abbrev State.respLenLegal (s : State) : Prop :=
  s.respLen = 0 ∨ s.respLen = 5 ∨ s.respLen = 8

/-- STATUS holds one of the codes that R24 says are produced. -/
abbrev State.statusLegal (s : State) : Prop :=
  s.status ∈ StatusCode.produced

/-- No lane at or above BRANCH_COUNT is set in LANES_OUT (R131, D17). -/
abbrev State.lanesMasked (s : State) : Prop :=
  ∀ k : Fin 32, s.branchCount.toNat ≤ k.val → s.lanesOut.getLsbD k.val = false

/-- TXBUF is checksum-valid: after reset it is all zeros, later the last frame of ENC (R39, R75, R101). -/
abbrev State.txbufValid (s : State) : Prop :=
  s.txbuf[7] = cks s.txbuf

/-- The invariant of the FCU. -/
abbrev State.Inv (s : State) : Prop :=
  s.branchLegal ∧ s.respLenLegal ∧ s.statusLegal ∧ s.lanesMasked ∧ s.txbufValid

/-- A safe step: the machine goes on, into a state that meets the invariant. -/
abbrev State.SafeStep (s : State) : Prop :=
  ∃ t, step s = .next t ∧ t.Inv

/-- The offsets whose registers a command may write: STATUS for every command but NOP, and the registers
that the "written by" column of R20 gives it. -/
def writesOffset (i : Instr) (o : Offset) : Bool :=
  let n := o.toNat
  match i with
  | .nop => false
  | .enc => n == 0x01 || (decide (0x08 ≤ n) && decide (n ≤ 0x0F))
  | .dec => n == 0x01 || n == 0x18 || (decide (0x20 ≤ n) && decide (n ≤ 0x23))
  | .vsl => n == 0x01
  | .cls => n == 0x01 || n == 0x19
  | .pck => n == 0x01 || (decide (0x04 ≤ n) && decide (n ≤ 0x07))
  | .unp => n == 0x01 || (decide (0x28 ≤ n) && decide (n ≤ 0x2B))

/-- The codes a command may leave in STATUS, from the "produced by" column of R24; NOP leaves STATUS as it
is, so it has none. -/
def statusAfter : Instr → List Nibble
  | .nop => []
  | .enc => [0x0]
  | .dec => [0x0, 0x2, 0x3]
  | .vsl => [0x0, 0x4, 0x5]
  | .cls => [0x0, 0x5, 0x7, 0x8]
  | .pck => [0x0, 0x9]
  | .unp => [0x0]

end Sys2Proof.Machine
end

