-- ==== Sys2Proof/Certificates/Slice0/Obligations.lean ====
section
/-! DEFINITION. The statements about the FCU.  Each says which rule of spec/ it formalises or rests on. -/

open Sys2Proof Sys2Proof.Machine

/-! ### Encoding and the step -/

/-- R71: the seven rows of the command opcode map, each word written out, and no other byte is a command. -/
def Obligations.OpcodeMapDecodes : Prop :=
  decode 0b00000000 = .ok .nop ∧ decode 0b00000001 = .ok .enc ∧ decode 0b00000010 = .ok .dec ∧
  decode 0b00000011 = .ok .vsl ∧ decode 0b00000100 = .ok .cls ∧ decode 0b00000101 = .ok .pck ∧
  decode 0b00000110 = .ok .unp ∧
  ∀ op : Byte, 7 ≤ op.toNat → decode op = .error (.illegalCommand op)

/-- Decoder and encoder agree in both directions: each command has one word, each legal word one command
(rests on R70 and R71). -/
def Obligations.DecodeAndEncodeAgree : Prop :=
  ∀ (i : Instr) (op : Byte), i.wf = true → (decode op = .ok i ↔ op = encode i)

/-- R22: a host write of `op` to CMD runs the command `op` selects and stores nothing; a host read of CMD
returns 0x00 and changes no register.
The fields `pending` and `lastRead` are the model's own (logs 1 and 3). -/
def Obligations.CmdWriteRunsDecodedCommand : Prop :=
  (∀ (s : State) (op : Byte) (rest : List HostAccess) (i : Instr),
    s.pending = .write 0x00 op :: rest → decode op = .ok i → i.wf = true →
      step s = exec i { s with pending := rest }) ∧
  (∀ (s : State) (rest : List HostAccess), s.pending = .read 0x00 :: rest →
    step s = .next { s with pending := rest, lastRead := some 0x00 })

/-- The word that `withFetchWord` places is the command the very next step runs, and everything else stays
(the model's own way for a program to reach the FCU, log 1). -/
def Obligations.FetchedWordRunsNext : Prop :=
  ∀ (s : State) (w : Nat) (i : Instr), decodeTableWord 8 w = some i →
    step (s.withFetchWord 8 w) = exec i s

/-- R72: writing 0x07 to 0xFF to CMD sets STATUS to ILLEGAL_COMMAND (0xE) and changes no other register,
whatever the value.
The fields `pending` and `lastRead` are the model's own (logs 1 and 3). -/
def Obligations.IllegalCommandSetsStatus : Prop :=
  ∀ (s : State) (op : Byte) (rest : List HostAccess),
    s.pending = .write 0x00 op :: rest → 0x07 ≤ op.toNat →
      step s = .next { s with pending := rest, status := 0xE }

/-! ### The commands -/

/-- R100: NOP completes and changes nothing, STATUS included.
The fields `pending` and `lastRead` are the model's own (logs 1 and 3). -/
def Obligations.NopChangesNothing : Prop :=
  (∀ s : State, exec .nop s = .next s) ∧
  (∀ (s : State) (rest : List HostAccess), s.pending = .write 0x00 0x00 :: rest →
    step s = .next { s with pending := rest })

/-- R101: ENC completes from every state; TXBUF is header, slave id, function code, payload and the
truncated sum of bytes 0 to 6; STATUS is OK; nothing else changes. -/
def Obligations.EncBuildsFrame : Prop :=
  ∀ s : State, ∃ t, exec .enc s = .next t ∧
    t.txbuf[0] = s.header ∧ t.txbuf[1] = s.slaveId ∧ t.txbuf[2] = s.fcIn ∧
    t.txbuf[3] = s.payloadIn[0] ∧ t.txbuf[4] = s.payloadIn[1] ∧
    t.txbuf[5] = s.payloadIn[2] ∧ t.txbuf[6] = s.payloadIn[3] ∧
    t.txbuf[7].toNat =
      (s.header.toNat + s.slaveId.toNat + s.fcIn.toNat + s.payloadIn[0].toNat +
        s.payloadIn[1].toNat + s.payloadIn[2].toNat + s.payloadIn[3].toNat) % 256 ∧
    t.status = 0x0 ∧ t = { s with txbuf := t.txbuf, status := t.status }

/-- R102: DEC completes from every state.  LEN below 8 gives FRAME_TOO_SHORT; otherwise a wrong byte 7 gives
CHECKSUM_MISMATCH; otherwise RX_FC is byte 2, RX_PAYLOAD is bytes 3 to 6 and STATUS is OK.  On an error only
STATUS changes. -/
def Obligations.DecValidatesFrame : Prop :=
  ∀ s : State,
    (s.rxlen.toNat < 8 → exec .dec s = .next { s with status := 0x2 }) ∧
    (8 ≤ s.rxlen.toNat →
      s.rxbuf[7].toNat ≠ (s.rxbuf[0].toNat + s.rxbuf[1].toNat + s.rxbuf[2].toNat +
        s.rxbuf[3].toNat + s.rxbuf[4].toNat + s.rxbuf[5].toNat + s.rxbuf[6].toNat) % 256 →
      exec .dec s = .next { s with status := 0x3 }) ∧
    (8 ≤ s.rxlen.toNat →
      s.rxbuf[7].toNat = (s.rxbuf[0].toNat + s.rxbuf[1].toNat + s.rxbuf[2].toNat +
        s.rxbuf[3].toNat + s.rxbuf[4].toNat + s.rxbuf[5].toNat + s.rxbuf[6].toNat) % 256 →
      exec .dec s = .next { s with
        rxFc := s.rxbuf[2]
        rxPayload := #v[s.rxbuf[3], s.rxbuf[4], s.rxbuf[5], s.rxbuf[6]]
        status := 0x0 })

/-- R103: VSL completes from every state.  LEN below 4 gives RESPONSE_TOO_SHORT; otherwise byte 1 of the
response against byte 1 of the request decides between SLAVE_ID_MISMATCH and OK.  Only STATUS changes. -/
def Obligations.VslComparesSlaveId : Prop :=
  ∀ s : State,
    (s.rxlen.toNat < 4 → exec .vsl s = .next { s with status := 0x5 }) ∧
    (4 ≤ s.rxlen.toNat → s.rxbuf[1] ≠ s.txbuf[1] →
      exec .vsl s = .next { s with status := 0x4 }) ∧
    (4 ≤ s.rxlen.toNat → s.rxbuf[1] = s.txbuf[1] →
      exec .vsl s = .next { s with status := 0x0 })

/-- R104: CLS completes from every state.  A silent request gives OK and RESP_LEN 0 whatever the response
registers hold; otherwise the length, then byte 2 of the response, decide. -/
def Obligations.ClsClassifiesResponse : Prop :=
  ∀ s : State,
    (s.silentBase.toNat ≤ s.txbuf[2].toNat ∧ s.txbuf[2].toNat ≤ s.silentBase.toNat + 8 →
      exec .cls s = .next { s with respLen := 0, status := 0x0 }) ∧
    (¬(s.silentBase.toNat ≤ s.txbuf[2].toNat ∧ s.txbuf[2].toNat ≤ s.silentBase.toNat + 8) →
      (s.rxlen.toNat < 4 → exec .cls s = .next { s with status := 0x5 }) ∧
      (4 ≤ s.rxlen.toNat → s.rxbuf[2] = s.txbuf[2] →
        exec .cls s = .next { s with respLen := 8, status := 0x0 }) ∧
      (4 ≤ s.rxlen.toNat → s.rxbuf[2] ≠ s.txbuf[2] → s.rxbuf[2] = s.txbuf[2] ||| 0x80 →
        exec .cls s = .next { s with respLen := 5, status := 0x7 }) ∧
      (4 ≤ s.rxlen.toNat → s.rxbuf[2] ≠ s.txbuf[2] → s.rxbuf[2] ≠ s.txbuf[2] ||| 0x80 →
        exec .cls s = .next { s with status := 0x8 }))

/-- R130: PCK completes from every state.  A set lane at or above BRANCH_COUNT gives CHANNEL_OUT_OF_RANGE and
leaves PAYLOAD_IN; otherwise PAYLOAD_IN is the lane vector's bytes, most significant first, and STATUS is OK. -/
def Obligations.PckPacksLanes : Prop :=
  ∀ s : State,
    ((∃ k, k < 32 ∧ s.branchCount.toNat ≤ k ∧ s.lanesIn.getLsbD k = true) →
      exec .pck s = .next { s with status := 0x9 }) ∧
    ((∀ k, k < 32 → s.branchCount.toNat ≤ k → s.lanesIn.getLsbD k = false) →
      exec .pck s = .next { s with
        payloadIn := #v[s.lanesIn.extractLsb' 24 8, s.lanesIn.extractLsb' 16 8,
          s.lanesIn.extractLsb' 8 8, s.lanesIn.extractLsb' 0 8]
        status := 0x0 })

/-- R131: UNP completes from every state with OK.  Lane `k` of LANES_OUT is bit `k mod 8` of byte
`3 - k div 8` of RX_PAYLOAD when `k` is below BRANCH_COUNT, and 0 otherwise; `lane_out` follows; nothing else
changes. -/
def Obligations.UnpUnpacksLanes : Prop :=
  ∀ s : State, ∃ t, exec .unp s = .next t ∧
    (∀ (k : Nat) (hk : k < 32), t.lanesOut.getLsbD k =
      (decide (k < s.branchCount.toNat) &&
        (s.rxPayload[3 - k / 8]'(by omega)).getLsbD (k % 8))) ∧
    laneOut t = t.lanesOut ∧
    t.status = 0x0 ∧ t = { s with lanesOut := t.lanesOut, status := t.status }

/-- The frame of every command, through the host's own read of a byte: an offset outside the registers the
command may write (Safety's `writesOffset`, the "written by" column of R20) reads as before, and the host side
is untouched.
The fields `pending` and `lastRead` are the model's own (logs 1 and 3). -/
def Obligations.CommandFrame : Prop :=
  ∀ (i : Instr) (s t : State), exec i s = .next t →
    (∀ o : Offset, writesOffset i o = false → memRead t o = memRead s o) ∧
    t.pending = s.pending ∧ t.lastRead = s.lastRead

/-! ### STATUS and errors -/

/-- R24: the codes each command can leave in STATUS; every illegal command value leaves ILLEGAL_COMMAND; no step
of any kind brings in one of the codes that are never produced; and IDLE enters STATUS by reset only.
The fields `pending` and `lastRead` are the model's own (logs 1 and 3). -/
def Obligations.StatusCodeProducers : Prop :=
  (∀ (i : Instr) (s t : State), exec i s = .next t →
    (i = .nop ∧ t.status = s.status) ∨ (i ≠ .nop ∧ t.status ∈ statusAfter i)) ∧
  (∀ (s t : State) (op : Byte) (rest : List HostAccess), s.pending = .write 0x00 op :: rest →
    0x07 ≤ op.toNat → step s = .next t → t.status = 0xE) ∧
  (∀ s t : State, step s = .next t → t.status ≠ s.status →
    t.status ∉ [0x1, 0x6, 0xA, 0xB, 0xC, 0xD]) ∧
  (∀ s t : State, step s = .next t → t.status = 0xF → s.status ≠ 0xF →
    ∃ st rest, s.pending = .reset st :: rest)

/-- "CODE keeps its value until the next non-NOP command or reset" (R23): only those two kinds of step change
STATUS.
The fields `pending` and `lastRead` are the model's own (logs 1 and 3). -/
def Obligations.StatusChangesOnlyByCommandOrReset : Prop :=
  ∀ s t : State, step s = .next t → t.status ≠ s.status →
    (∃ op rest, s.pending = .write 0x00 op :: rest ∧ op ≠ 0x00) ∨
    (∃ st rest, s.pending = .reset st :: rest)

/-- A command that fails, an illegal one included, writes STATUS.CODE and no other register, within its own
step (rests on R153 and R12).
The fields `pending` and `lastRead` are the model's own (logs 1 and 3). -/
def Obligations.FailureWritesStatusOnly : Prop :=
  ∀ (s t : State) (op : Byte) (rest : List HostAccess),
    s.pending = .write 0x00 op :: rest → op ≠ 0x00 → step s = .next t →
    t.status ∈ [0x2, 0x3, 0x4, 0x5, 0x8, 0x9, 0xE] →
      t = { s with pending := rest, status := t.status }

/-- R184: a failing DEC, VSL, CLS or PCK leaves every register but STATUS; so UNP after a failed DEC unpacks the
older payload, and ENC after a failed PCK encodes the old PAYLOAD_IN. -/
def Obligations.FailedCommandsLeaveStaleResults : Prop :=
  (∀ (i : Instr) (s t : State), i = .dec ∨ i = .vsl ∨ i = .cls ∨ i = .pck → exec i s = .next t →
    t.status ≠ 0x0 → t.status ≠ 0x7 → t = { s with status := t.status }) ∧
  (∀ s t u v : State, exec .dec s = .next t → t.status ≠ 0x0 →
    exec .unp t = .next u → exec .unp s = .next v → u = v) ∧
  (∀ s t u v : State, exec .pck s = .next t → t.status ≠ 0x0 →
    exec .enc t = .next u → exec .enc s = .next v → u = v)

/-! ### The host port -/

/-- "Every host access to every offset is allowed. No access faults" (rests on R58): every step answers a next
state, whatever the access.  That a step with nothing pending answers one too is the model's own reading (log 2),
as is the queue `pending` (log 1). -/
def Obligations.NoAccessFaults : Prop :=
  ∀ s : State, ∃ t, step s = .next t

/-- Host reads return the register bytes of the address map, reserved bits reading 0 (rests on R51 and R55). -/
def Obligations.ReadsFollowAddressMap : Prop :=
  ∀ s : State,
    memRead s 0x00 = 0x00 ∧ (memRead s 0x01).toNat = s.status.toNat ∧
    memRead s 0x02 = s.fcIn ∧ (memRead s 0x03).toNat = s.rxlen.toNat ∧
    (∀ j : Fin 4, memRead s (0x04 + BitVec.ofNat 6 j.val) = s.payloadIn[j.val]) ∧
    (∀ j : Fin 8, memRead s (0x08 + BitVec.ofNat 6 j.val) = s.txbuf[j.val]) ∧
    (∀ j : Fin 8, memRead s (0x10 + BitVec.ofNat 6 j.val) = s.rxbuf[j.val]) ∧
    memRead s 0x18 = s.rxFc ∧ (memRead s 0x19).toNat = s.respLen.toNat ∧
    (memRead s 0x1A).toNat = s.branchCount.toNat ∧ memRead s 0x1B = s.header ∧
    memRead s 0x1C = s.slaveId ∧ memRead s 0x1D = s.silentBase ∧
    (∀ j : Fin 4, memRead s (0x20 + BitVec.ofNat 6 j.val) = s.rxPayload[j.val]) ∧
    (∀ j : Fin 4, memRead s (0x24 + BitVec.ofNat 6 j.val) =
      s.lanesIn.extractLsb' (8 * (3 - j.val)) 8) ∧
    (∀ j : Fin 4, memRead s (0x28 + BitVec.ofNat 6 j.val) =
      s.lanesOut.extractLsb' (8 * (3 - j.val)) 8)

/-- A lane vector and its four host-port bytes satisfy `L = be32(byte@+0, ..., byte@+3)` (rests on R57). -/
def Obligations.LaneRegistersAreBigEndian : Prop :=
  ∀ s : State,
    s.lanesIn.toNat = (memRead s 0x24).toNat * 2 ^ 24 + (memRead s 0x25).toNat * 2 ^ 16 +
      (memRead s 0x26).toNat * 2 ^ 8 + (memRead s 0x27).toNat ∧
    s.lanesOut.toNat = (memRead s 0x28).toNat * 2 ^ 24 + (memRead s 0x29).toNat * 2 ^ 16 +
      (memRead s 0x2A).toNat * 2 ^ 8 + (memRead s 0x2B).toNat

/-- No host read has a side effect: a read of any offset returns its byte and changes no register
(rests on R54).
The fields `pending` and `lastRead` are the model's own (logs 1 and 3). -/
def Obligations.ReadsHaveNoSideEffect : Prop :=
  ∀ (s : State) (o : Offset) (rest : List HostAccess), s.pending = .read o :: rest →
    step s = .next { s with pending := rest, lastRead := some (memRead s o) }

/-- A write to a read-write register stores the value and has no other effect (rests on R54 and the RW rows of
R51; RXLEN stores bits 3:0).
The fields `pending` and `lastRead` are the model's own (logs 1 and 3). -/
def Obligations.WritesStoreIntoRegisters : Prop :=
  ∀ (s : State) (o : Offset) (v : Byte) (rest : List HostAccess), s.pending = .write o v :: rest →
    (o = 0x02 → step s = .next { s with pending := rest, fcIn := v }) ∧
    (o = 0x03 → step s = .next { s with pending := rest, rxlen := v.extractLsb' 0 4 }) ∧
    (∀ j : Fin 4, o = 0x04 + BitVec.ofNat 6 j.val →
      step s = .next { s with pending := rest, payloadIn := s.payloadIn.set j.val v }) ∧
    (∀ j : Fin 8, o = 0x10 + BitVec.ofNat 6 j.val →
      step s = .next { s with pending := rest, rxbuf := s.rxbuf.set j.val v }) ∧
    (∀ j : Fin 4, o = 0x24 + BitVec.ofNat 6 j.val → ∃ l : Lanes,
      step s = .next { s with pending := rest, lanesIn := l } ∧
      ∀ k, k < 32 → l.getLsbD k =
        if 3 - k / 8 = j.val then v.getLsbD (k % 8) else s.lanesIn.getLsbD k)

/-- Each writable register byte reads back what was written, and every other offset reads as before; RXLEN reads
back bits 3:0 (rests on R20 and R59).
The fields `pending` and `lastRead` are the model's own (logs 1 and 3). -/
def Obligations.WrittenByteReadsBack : Prop :=
  ∀ (s : State) (o : Offset) (v : Byte) (rest : List HostAccess), s.pending = .write o v :: rest →
    (o = 0x02 ∨ (0x04 ≤ o.toNat ∧ o.toNat ≤ 0x07) ∨ (0x10 ≤ o.toNat ∧ o.toNat ≤ 0x17) ∨
        (0x24 ≤ o.toNat ∧ o.toNat ≤ 0x27) →
      ∃ t, step s = .next t ∧ memRead t o = v ∧ ∀ q, q ≠ o → memRead t q = memRead s q) ∧
    (o = 0x03 →
      ∃ t, step s = .next t ∧ memRead t o = v &&& 0x0F ∧ ∀ q, q ≠ o → memRead t q = memRead s q)

/-- R55: a write to a read-only register changes no state; a write to RXLEN stores only bits 3:0; the reserved
bits of STATUS, RXLEN, RESP_LEN and BRANCH_COUNT read as 0.
The fields `pending` and `lastRead` are the model's own (logs 1 and 3). -/
def Obligations.ReadOnlyWritesAndReservedBits : Prop :=
  (∀ (s : State) (o : Offset) (v : Byte) (rest : List HostAccess), s.pending = .write o v :: rest →
    o = 0x01 ∨ (0x08 ≤ o.toNat ∧ o.toNat ≤ 0x0F) ∨ (0x18 ≤ o.toNat ∧ o.toNat ≤ 0x1D) ∨
      (0x20 ≤ o.toNat ∧ o.toNat ≤ 0x23) ∨ (0x28 ≤ o.toNat ∧ o.toNat ≤ 0x2B) →
    step s = .next { s with pending := rest }) ∧
  (∀ (s : State) (v : Byte) (rest : List HostAccess), s.pending = .write 0x03 v :: rest →
    step s = .next { s with pending := rest, rxlen := v.extractLsb' 0 4 }) ∧
  (∀ s : State, (memRead s 0x01).extractLsb' 4 4 = 0 ∧ (memRead s 0x03).extractLsb' 4 4 = 0 ∧
    (memRead s 0x19).extractLsb' 4 4 = 0 ∧ (memRead s 0x1A).extractLsb' 6 2 = 0)

/-- R52: a read of a reserved offset returns 0x00, a write to one is ignored, and neither writes STATUS.
The fields `pending` and `lastRead` are the model's own (logs 1 and 3). -/
def Obligations.ReservedOffsets : Prop :=
  ∀ (s : State) (o : Offset) (rest : List HostAccess),
    o.toNat = 0x1E ∨ o.toNat = 0x1F ∨ 0x2C ≤ o.toNat →
    (s.pending = .read o :: rest →
      step s = .next { s with pending := rest, lastRead := some 0x00 }) ∧
    (∀ v, s.pending = .write o v :: rest → step s = .next { s with pending := rest })

/-- A repeated command leaves the state the first one left: every command, legal or not, is idempotent
(rests on R54).
The fields `pending` and `lastRead` are the model's own (logs 1 and 3). -/
def Obligations.CommandsAreIdempotent : Prop :=
  ∀ (s t u : State) (op : Byte) (rest : List HostAccess),
    s.pending = .write 0x00 op :: .write 0x00 op :: rest →
    step s = .next t → step t = .next u → u = { t with pending := rest }

/-- The accesses queued for the FCU are performed one a step, in the host's order, each seeing every access before
it: running the queue is performing it (rests on R59 and R14; the queue is the model's own, log 1). -/
def Obligations.QueueRunsInHostOrder : Prop :=
  ∀ (as : List HostAccess) (s : State),
    Host.Core.run core as.length { s with pending := as } = performAll as { s with pending := [] }

/-- With no access to come a step changes nothing: "It holds its state between accesses for as long as it is not
reset" (rests on R161; that such a step exists is the model's own, log 2).
The fields `pending` and `lastRead` are the model's own (logs 1 and 3). -/
def Obligations.IdleStepHoldsState : Prop :=
  ∀ s : State, s.pending = [] → step s = .next s

/-! ### Reset and configuration -/

/-- R181: asserting `rst` loads the configuration registers from the straps, the branch count clamped, sets STATUS
to IDLE and every other register to 0.
The fields `pending` and `lastRead` are the model's own (logs 1 and 3). -/
def Obligations.ResetLoadsStrapsAndZeros : Prop :=
  ∀ (s : State) (st : Straps) (rest : List HostAccess), s.pending = .reset st :: rest →
    ∃ t, step s = .next t ∧
      t.header = st.header ∧ t.slaveId = st.slaveId ∧ t.silentBase = st.silentBase ∧
      t.branchCount.toNat =
        (if st.branchCount.toNat < 8 then 8 else if 32 < st.branchCount.toNat then 32
          else st.branchCount.toNat) ∧
      t.status = 0xF ∧ t.fcIn = 0 ∧ (∀ j : Fin 4, t.payloadIn[j.val] = 0) ∧
      (∀ j : Fin 8, t.txbuf[j.val] = 0) ∧ (∀ j : Fin 8, t.rxbuf[j.val] = 0) ∧ t.rxlen = 0 ∧
      t.rxFc = 0 ∧ (∀ j : Fin 4, t.rxPayload[j.val] = 0) ∧ t.respLen = 0 ∧ t.lanesIn = 0 ∧
      t.lanesOut = 0

/-- R180: reset replaces all registers whatever they held (two machines that differ in them agree afterwards), and
reset is the only event that reloads the configuration registers.
The fields `pending` and `lastRead` are the model's own (logs 1 and 3). -/
def Obligations.ResetReplacesWholeState : Prop :=
  (∀ (s t u v : State) (st : Straps) (rest rest' : List HostAccess),
    s.pending = .reset st :: rest → t.pending = .reset st :: rest' →
    step s = .next u → step t = .next v →
      ∀ o : Offset, memRead u o = memRead v o) ∧
  (∀ s t : State, step s = .next t →
    (t.header = s.header ∧ t.slaveId = s.slaveId ∧ t.branchCount = s.branchCount ∧
      t.silentBase = s.silentBase) ∨
    ∃ st rest, s.pending = .reset st :: rest)

/-- R34: reset clamps the raw branch count to 8..32, and the register holds a value in 8..32 at all times after
that: every step keeps it there. -/
def Obligations.BranchCountClamped : Prop :=
  (∀ st : Straps, (State.resetWith st).branchCount.toNat =
    if st.branchCount.toNat < 8 then 8 else if 32 < st.branchCount.toNat then 32
      else st.branchCount.toNat) ∧
  (∀ s t : State, step s = .next t → 8 ≤ s.branchCount.toNat ∧ s.branchCount.toNat ≤ 32 →
    8 ≤ t.branchCount.toNat ∧ t.branchCount.toNat ≤ 32)

/-- The reset state, for every strap setting and for the open straps of the configuration, meets the FCU's
invariant. -/
def Obligations.ResetMeetsInvariant : Prop :=
  (∀ st : Straps, (State.resetWith st).Inv) ∧ State.reset.Inv

/-- Every step keeps the FCU's invariant: BRANCH_COUNT in 8..32, RESP_LEN 0, 5 or 8, STATUS a code that R24 says
is produced, no lane of LANES_OUT set at or above BRANCH_COUNT, TXBUF checksum-valid (rests on R24, R32, R34, R36,
R131; on R75 and R101 for the checksum; on R39 for the step that is a reset).  That a step with nothing pending answers
a next state is the model's own reading (log 2). -/
def Obligations.StepKeepsInvariant : Prop :=
  ∀ s : State, s.Inv → ∃ t, step s = .next t ∧ t.Inv

/-! ### The codec's laws -/

/-- The checksum is the plain unsigned sum of bytes 0 to 6 modulo 256 (rests on R75), and DEC accepts a frame of 8
bytes exactly when byte 7 equals it (rests on R102, which `DecValidatesFrame` states whole). -/
def Obligations.ChecksumIsTruncatedSum : Prop :=
  (∀ f : Frame, (cks f).toNat = (f[0].toNat + f[1].toNat + f[2].toNat + f[3].toNat + f[4].toNat +
    f[5].toNat + f[6].toNat) % 256) ∧
  (∀ s t : State, 8 ≤ s.rxlen.toNat → exec .dec s = .next t →
    (t.status = 0x0 ↔ s.rxbuf[7] = cks s.rxbuf))

/-- R105: `expected_length` is 0 for a silent code and 8 for every other. -/
def Obligations.ExpectedLengthIsZeroOrEight : Prop :=
  ∀ base fc : Byte,
    (base.toNat ≤ fc.toNat ∧ fc.toNat ≤ base.toNat + 8 → expectedLength base fc = 0) ∧
    (¬(base.toNat ≤ fc.toNat ∧ fc.toNat ≤ base.toNat + 8) → expectedLength base fc = 8)

/-- R107: ENC, the copy of TXBUF into RXBUF with RXLEN 8, and DEC give back the function code and the payload, from
every state, whatever HEADER and SLAVE_ID are (that LOOPBACK's accesses make this copy is `LoopbackCopiesTxbuf`). -/
def Obligations.EncodeDecodeRoundTrip : Prop :=
  ∀ s : State, ∃ t, exec .enc s = .next t ∧ ∃ u,
    exec .dec { t with rxbuf := t.txbuf, rxlen := 8 } = .next u ∧
    u.rxFc = s.fcIn ∧ u.rxPayload = s.payloadIn ∧ u.status = 0x0

/-- R108: of a checksum-valid frame, flipping any single bit of bytes 0 to 7 makes DEC end in CHECKSUM_MISMATCH;
and no more is promised: +1 in byte 3 with -1 in byte 4 (byte 3 below 0xFF, byte 4 above 0x00) passes. -/
def Obligations.SingleBitErrorDetected : Prop :=
  (∀ (s : State) (i k : Fin 8), 8 ≤ s.rxlen.toNat → s.rxbuf[7] = cks s.rxbuf →
    exec .dec { s with
        rxbuf := s.rxbuf.set i.val (s.rxbuf[i.val] ^^^ BitVec.twoPow 8 k.val) } =
      .next { s with
        rxbuf := s.rxbuf.set i.val (s.rxbuf[i.val] ^^^ BitVec.twoPow 8 k.val)
        status := 0x3 }) ∧
  (∀ s : State, 8 ≤ s.rxlen.toNat → s.rxbuf[7] = cks s.rxbuf →
    s.rxbuf[3] ≠ 0xFF → s.rxbuf[4] ≠ 0x00 → ∃ t,
      exec .dec { s with
        rxbuf := (s.rxbuf.set 3 (s.rxbuf[3] + 1)).set 4 (s.rxbuf[4] - 1) } = .next t ∧
      t.status = 0x0)

/-- R109: DEC and VSL may run in either order: each ends with the same code whichever runs first, the states agree
but for STATUS, and neither changes RXBUF or TXBUF. -/
def Obligations.DecAndVslCommute : Prop :=
  ∀ s : State, ∃ a b c d,
    exec .dec s = .next a ∧ exec .vsl a = .next b ∧ exec .vsl s = .next c ∧ exec .dec c = .next d ∧
    a.status = d.status ∧ c.status = b.status ∧ d = { b with status := d.status } ∧
    a.rxbuf = s.rxbuf ∧ a.txbuf = s.txbuf ∧ c.rxbuf = s.rxbuf ∧ c.txbuf = s.txbuf

/-- R88: for a request code with bit 7 set the exception reply is the success echo, CLS says so, CLS never answers
EXCEPTION_RESPONSE, and ENC does not refuse the code. -/
def Obligations.Bit7CodesHideExceptions : Prop :=
  (∀ fc : Byte, fc.getLsbD 7 = true → fc ||| 0x80 = fc) ∧
  (∀ s : State, s.txbuf[2].getLsbD 7 = true →
    ¬(s.silentBase.toNat ≤ s.txbuf[2].toNat ∧ s.txbuf[2].toNat ≤ s.silentBase.toNat + 8) →
    4 ≤ s.rxlen.toNat → s.rxbuf[2] = s.txbuf[2] ||| 0x80 →
    exec .cls s = .next { s with respLen := 8, status := 0x0 }) ∧
  (∀ s t : State, s.txbuf[2].getLsbD 7 = true → exec .cls s = .next t → t.status ≠ 0x7) ∧
  (∀ s : State, s.fcIn.getLsbD 7 = true → ∃ t, exec .enc s = .next t ∧
    t.status = 0x0 ∧ t.txbuf[2] = s.fcIn)

/-- CLS looks at no byte of RXBUF but byte 2: two states that agree on its operands get the same code and the same
RESP_LEN, whatever bytes 0, 3 and 4 of an exception reply are (rests on R104 and R163). -/
def Obligations.ClsReadsOnlyItsOperands : Prop :=
  ∀ s s' t t' : State, s.txbuf[2] = s'.txbuf[2] → s.silentBase = s'.silentBase →
    s.rxlen = s'.rxlen → s.rxbuf[2] = s'.rxbuf[2] → s.respLen = s'.respLen →
    exec .cls s = .next t → exec .cls s' = .next t' →
      t.status = t'.status ∧ t.respLen = t'.respLen

/-- The silent range of R78 holds nine codes, or the codes up to 0xFF where SILENT_BASE is above 0xF7 (rests on
R78). -/
def Obligations.SilentRangeSize : Prop :=
  ∀ base : Byte,
    (List.range 256).countP (fun n => isSilent base (BitVec.ofNat 8 n)) =
      if base.toNat ≤ 0xF7 then 9 else 256 - base.toNat

/-- Under every function-code numbering that R79 allows, CLS right after the request, with RXLEN 0, tells the names
of the silent column from the others: OK and RESP_LEN 0 for a silent name, RESPONSE_TOO_SHORT (a reply is due) for
every other (rests on R79, R104, R189; the numbering is quantified over, log 5). -/
def Obligations.NamedCodesHaveTheirPlan : Prop :=
  ∀ (pFc : FcName → Byte) (s : State) (n : FcName), FcMapValid pFc s.silentBase →
    s.txbuf[2] = pFc n → s.rxlen = 0 →
    (n.silent = true → exec .cls s = .next { s with respLen := 0, status := 0x0 }) ∧
    (n.silent = false → exec .cls s = .next { s with status := 0x5 })

/-- The two-stage fill: four to seven bytes of a valid success echo give OK and RESP_LEN 8 from CLS, DEC on them gives
FRAME_TOO_SHORT and changes STATUS only, and DEC after the rest has come gives the frame's function code and payload; an
exception reply of 5 bytes gives EXCEPTION_RESPONSE and RESP_LEN 5 from CLS, and FRAME_TOO_SHORT from DEC (rests on R185,
R102, R104). -/
def Obligations.TwoStageResponseFill : Prop :=
  (∀ (s : State) (f : Frame),
    ¬(s.silentBase.toNat ≤ s.txbuf[2].toNat ∧ s.txbuf[2].toNat ≤ s.silentBase.toNat + 8) →
    4 ≤ s.rxlen.toNat → s.rxlen.toNat < 8 →
    (∀ (j : Nat) (hj : j < 4), s.rxbuf[j] = f[j]) → f[2] = s.txbuf[2] → f[7] = cks f →
    ∃ t u v, exec .cls s = .next t ∧ t.status = 0x0 ∧ t.respLen = 8 ∧
      exec .dec t = .next u ∧ u = { t with status := 0x2 } ∧
      exec .dec { u with rxbuf := f, rxlen := 8 } = .next v ∧ v.status = 0x0 ∧
      v.rxFc = s.txbuf[2] ∧ v.rxPayload = #v[f[3], f[4], f[5], f[6]]) ∧
  (∀ s : State,
    ¬(s.silentBase.toNat ≤ s.txbuf[2].toNat ∧ s.txbuf[2].toNat ≤ s.silentBase.toNat + 8) →
    s.rxlen = 5 → s.txbuf[2].getLsbD 7 = false → s.rxbuf[2] = s.txbuf[2] ||| 0x80 →
    ∃ t u, exec .cls s = .next t ∧ t.status = 0x7 ∧ t.respLen = 5 ∧
      exec .dec t = .next u ∧ u = { t with status := 0x2 })

/-! ### Lanes -/

/-- `lane_out` is LANES_OUT and `lane_valid` has bit `k` exactly when `k < BRANCH_COUNT`, in every state (rests on
R36). -/
def Obligations.LanePortsDriven : Prop :=
  ∀ s : State, laneOut s = s.lanesOut ∧
    ∀ k, k < 32 → (laneValid s).getLsbD k = decide (k < s.branchCount.toNat)

/-- After UNP, channel `i` (1-based, at most BRANCH_COUNT) reads as its bit of the decoded payload, on the register
and on the port (rests on R134 and R80). -/
def Obligations.ChannelReadsItsBit : Prop :=
  ∀ (s : State) (i : Nat) (hi : 1 ≤ i ∧ i ≤ 32), i ≤ s.branchCount.toNat →
    ∃ t, exec .unp s = .next t ∧
      channelOn t i = (s.rxPayload[3 - (i - 1) / 8]'(by omega)).getLsbD ((i - 1) % 8) ∧
      (laneOut t).getLsbD (i - 1) = channelOn t i

/-- For every lane vector that PCK admits, PCK, ENC, LOOPBACK, DEC and UNP end with LANES_OUT equal to LANES_IN
and STATUS OK; with BRANCH_COUNT 32 that is every vector; a vector with a lane at or above BRANCH_COUNT is refused by
PCK, not truncated (rests on R132, and on R87 for the LOOPBACK line, whose written bytes are TXBUF's as of the line's
start by the model's own choice, log 12). -/
def Obligations.PackingBijection : Prop :=
  (∀ s : State, (∀ k, k < 32 → s.branchCount.toNat ≤ k → s.lanesIn.getLsbD k = false) →
    ∃ t, runLines [.command .pck, .command .enc, .loopback, .command .dec, .command .unp] s = .next t ∧
      t.lanesOut = s.lanesIn ∧ t.status = 0x0) ∧
  (∀ s : State, s.branchCount.toNat = 32 →
    ∃ t, runLines [.command .pck, .command .enc, .loopback, .command .dec, .command .unp] s = .next t ∧
      t.lanesOut = s.lanesIn ∧ t.status = 0x0) ∧
  (∀ (s : State) (k : Nat), k < 32 → s.branchCount.toNat ≤ k → s.lanesIn.getLsbD k = true →
    exec .pck s = .next { s with status := 0x9 })

/-- The group mask of a list of 0-based indices is the sum of 2^k over the set of its members; PCK packs it when
every index is below BRANCH_COUNT, lane by lane, and raises CHANNEL_OUT_OF_RANGE otherwise; {0,2,4,6} gives
0x00000055 (rests on R133).  That an index is below 32 is the model's own reading (log 13): R133 speaks of any index,
and a lane vector of 32 bits carries no other. -/
def Obligations.GroupMaskPacks : Prop :=
  (∀ ks : List (Fin 32), (groupMask ks).toNat = ∑ k ∈ ks.toFinset, 2 ^ k.val) ∧
  (∀ (s : State) (ks : List (Fin 32)), s.lanesIn = groupMask ks →
    ((∀ k ∈ ks, k.val < s.branchCount.toNat) → ∃ t, exec .pck s = .next t ∧ t.status = 0x0 ∧
      ∀ j : Fin 32, (t.payloadIn[3 - j.val / 8]'(by omega)).getLsbD (j.val % 8) = decide (j ∈ ks)) ∧
    ((∃ k ∈ ks, s.branchCount.toNat ≤ k.val) → exec .pck s = .next { s with status := 0x9 })) ∧
  groupMask [0, 2, 4, 6] = 0x00000055

/-- ENC of a point payload sends the 24-bit duration big-endian in frame bytes 3 to 5 and the channel number in
byte 6 (rests on R83 and R101).  That a duration is an argument of 24 bits is the model's own choice (log 11). -/
def Obligations.PointPayloadOnTheWire : Prop :=
  ∀ (s : State) (tMs : BitVec 24) (i : Byte), s.payloadIn = pointPayload tMs i →
    ∃ t, exec .enc s = .next t ∧ t.status = 0x0 ∧
      t.txbuf[3].toNat * 2 ^ 16 + t.txbuf[4].toNat * 2 ^ 8 + t.txbuf[5].toNat = tMs.toNat ∧
      t.txbuf[6] = i

/-! ### The host notation -/

/-- The loading pseudo-instructions, run on the machine: WR32 loads LANES_IN whole, WRPAY loads PAYLOAD_IN, WRRX of n
bytes loads the first n bytes of RXBUF and RXLEN (rests on R87). -/
def Obligations.LoadLinesLoadRegisters : Prop :=
  (∀ (s : State) (v : Lanes), runLine (.wr32 v) s = .next { s with lanesIn := v }) ∧
  (∀ (s : State) (p : Payload), runLine (.wrpay p) s = .next { s with payloadIn := p }) ∧
  (∀ (s : State) (bs : List Byte), bs.length ≤ 8 → ∃ t, runLine (.wrrx bs) s = .next t ∧
    t = { s with rxbuf := t.rxbuf, rxlen := t.rxlen } ∧ t.rxlen.toNat = bs.length ∧
    ∀ j : Fin 8, t.rxbuf[j.val] = bs.getD j.val s.rxbuf[j.val])

/-- LOOPBACK copies TXBUF into RXBUF and sets RXLEN to 8; the last byte it read is TXBUF[7] (rests on R87).
That the bytes it writes are TXBUF's as of the line's start is the model's own choice (log 12).
The fields `pending` and `lastRead` are the model's own (logs 1 and 3). -/
def Obligations.LoopbackCopiesTxbuf : Prop :=
  ∀ s : State, runLine .loopback s =
    .next { s with rxbuf := s.txbuf, rxlen := 8, lastRead := some s.txbuf[7] }

/-- BST reads STATUS and goes on at its label exactly when bits 3:0 are its code, else at the next line; the FCU's
registers do not change (rests on R87).
That a label and the next line are line numbers, `label` and `pc + 1`, is the model's own choice (log 12).
The fields `pending` and `lastRead` are the model's own (logs 1 and 3). -/
def Obligations.BranchOnStatus : Prop :=
  ∀ (s : State) (code : Nibble) (label pc : Nat), ∃ t, runLine (.bst code label) s = .next t ∧
    t = { s with lastRead := t.lastRead } ∧
    (s.status = code → HostLine.nextLine pc t (.bst code label) = some label) ∧
    (s.status ≠ code → HostLine.nextLine pc t (.bst code label) = some (pc + 1))
end

