-- ==== Sys2Proof/Laws/Operands.lean ====
section
/-! SUPPORT. One lemma per value function of Machine/Operands.lean and per condition of Machine/Flags.lean:
what it computes, in arithmetic on natural numbers or bit by bit. -/

namespace Sys2Proof.Machine

theorem cks_toNat (f : Frame) :
    (cks f).toNat =
      (f[0].toNat + f[1].toNat + f[2].toNat + f[3].toNat + f[4].toNat + f[5].toNat + f[6].toNat)
        % 256 := by
  simp [cks]

/-- The checksum does not depend on byte 7. -/
theorem cks_congr {f g : Frame} (h : ∀ j (hj : j < 7), f[j] = g[j]) : cks f = cks g := by
  simp [cks, h 0 (by omega), h 1 (by omega), h 2 (by omega), h 3 (by omega), h 4 (by omega),
    h 5 (by omega), h 6 (by omega)]

/-- A frame that `mkFrame` builds is checksum-valid. -/
theorem mkFrame_valid (h sid fc : Byte) (p : Payload) :
    checksumMismatch (mkFrame h sid fc p) = false := by
  simp [checksumMismatch, mkFrame, cks]

@[simp] theorem mkFrame_header (h sid fc : Byte) (p : Payload) : (mkFrame h sid fc p)[0] = h := rfl
@[simp] theorem mkFrame_slaveId (h sid fc : Byte) (p : Payload) : (mkFrame h sid fc p)[1] = sid := rfl
@[simp] theorem mkFrame_fc (h sid fc : Byte) (p : Payload) : (mkFrame h sid fc p)[2] = fc := rfl

/-- The payload field of a built frame is the payload it was built from. -/
theorem framePayload_mkFrame (h sid fc : Byte) (p : Payload) :
    framePayload (mkFrame h sid fc p) = p := by
  refine Vector.ext fun i hi => ?_
  obtain rfl | rfl | rfl | rfl : i = 0 ∨ i = 1 ∨ i = 2 ∨ i = 3 := by omega
  all_goals rfl

theorem be32_toNat (a b c d : Byte) :
    (be32 a b c d).toNat = a.toNat * 2 ^ 24 + b.toNat * 2 ^ 16 + c.toNat * 2 ^ 8 + d.toNat := by
  simp only [be32, BitVec.toNat_append]
  have hb := b.isLt
  have hc := c.isLt
  have hd := d.isLt
  rw [← Nat.shiftLeft_add_eq_or_of_lt hb, ← Nat.shiftLeft_add_eq_or_of_lt hc,
    ← Nat.shiftLeft_add_eq_or_of_lt hd]
  simp only [Nat.shiftLeft_eq]
  omega

/-- Lane `k` of four bytes is bit `k mod 8` of byte `3 - k div 8` (R80). -/
theorem bytesToLanes_getLsbD (p : Payload) (k : Nat) (hk : k < 32) :
    (bytesToLanes p).getLsbD k = (p[3 - k / 8]'(by omega)).getLsbD (k % 8) := by
  simp only [bytesToLanes, be32, BitVec.getLsbD_append]
  have h : k / 8 = 0 ∨ k / 8 = 1 ∨ k / 8 = 2 ∨ k / 8 = 3 := by omega
  obtain h | h | h | h := h
  · have e : k % 8 = k := by omega
    have h8 : k < 8 := by omega
    simp [h, e, h8]
  · have e : k % 8 = k - 8 := by omega
    have h8 : ¬ k < 8 := by omega
    have h16 : k - 8 < 8 := by omega
    simp [h, e, h8, h16]
  · have e : k % 8 = k - 8 - 8 := by omega
    have h8 : ¬ k < 8 := by omega
    have h16 : ¬ k - 8 < 8 := by omega
    have h24 : k - 8 - 8 < 8 := by omega
    simp [h, e, h8, h16, h24]
  · have e : k % 8 = k - 8 - 8 - 8 := by omega
    have h8 : ¬ k < 8 := by omega
    have h16 : ¬ k - 8 < 8 := by omega
    have h24 : ¬ k - 8 - 8 < 8 := by omega
    simp [h, e, h8, h16, h24]

/-- Bit `k mod 8` of byte `3 - k div 8` of a lane vector is its lane `k` (R80). -/
theorem lanesToBytes_getLsbD (l : Lanes) (k : Nat) (hk : k < 32) :
    ((lanesToBytes l)[3 - k / 8]'(by omega)).getLsbD (k % 8) = l.getLsbD k := by
  have h : k / 8 = 0 ∨ k / 8 = 1 ∨ k / 8 = 2 ∨ k / 8 = 3 := by omega
  have hm : k % 8 < 8 := Nat.mod_lt _ (by omega)
  obtain h | h | h | h := h
  all_goals
    simp [lanesToBytes, h, hm]
    congr 1
    omega

/-- Packing and unpacking are inverse, one way (R132). -/
@[simp] theorem bytesToLanes_lanesToBytes (l : Lanes) : bytesToLanes (lanesToBytes l) = l := by
  refine BitVec.eq_of_getLsbD_eq fun k hk => ?_
  rw [bytesToLanes_getLsbD _ k hk, lanesToBytes_getLsbD _ k hk]

/-- Packing and unpacking are inverse, the other way (R132). -/
@[simp] theorem lanesToBytes_bytesToLanes (p : Payload) : lanesToBytes (bytesToLanes p) = p := by
  refine Vector.ext fun i hi => BitVec.eq_of_getLsbD_eq fun b hb => ?_
  have hk : 8 * (3 - i) + b < 32 := by omega
  have e1 : 3 - (8 * (3 - i) + b) / 8 = i := by omega
  have e2 : (8 * (3 - i) + b) % 8 = b := by omega
  have h1 := lanesToBytes_getLsbD (bytesToLanes p) _ hk
  have h2 := bytesToLanes_getLsbD p _ hk
  simp only [e1, e2] at h1 h2
  rw [h1, h2]

@[simp] theorem lowmask_getLsbD (n : BitVec 6) (k : Nat) (hk : k < 32) :
    (lowmask n).getLsbD k = decide (k < n.toNat) := by
  rw [lowmask, BitVec.getLsbD_ofNat, Nat.testBit_two_pow_sub_one]
  simp [hk]

theorem isSilent_iff (base fc : Byte) :
    isSilent base fc = true ↔ base.toNat ≤ fc.toNat ∧ fc.toNat ≤ base.toNat + 8 := by
  simp [isSilent]

theorem expectedLength_eq_zero (base fc : Byte) :
    expectedLength base fc = 0 ↔ isSilent base fc = true := by
  unfold expectedLength
  split <;> simp_all

theorem clampBranch_toNat (b : Byte) :
    (clampBranch b).toNat = if b.toNat < 8 then 8 else if b.toNat > 32 then 32 else b.toNat := by
  unfold clampBranch
  split
  · rfl
  · split
    · rfl
    · rename_i h8 h32
      simp only [Config.kDefaultBranches, Config.kMaxBranches] at h8 h32
      simp only [BitVec.toNat_setWidth]
      omega

theorem frameTooShort_iff (len : Nibble) : frameTooShort len = true ↔ len.toNat < 8 := by
  simp [frameTooShort]

theorem responseTooShort_iff (len : Nibble) : responseTooShort len = true ↔ len.toNat < 4 := by
  simp [responseTooShort]

theorem checksumMismatch_iff (f : Frame) : checksumMismatch f = true ↔ f[7] ≠ cks f := by
  simp [checksumMismatch]

/-- PCK's range check, lane by lane (R130, R151). -/
theorem channelOutOfRange_iff (l : Lanes) (n : BitVec 6) :
    channelOutOfRange l n = true ↔ ∃ k, k < 32 ∧ n.toNat ≤ k ∧ l.getLsbD k = true := by
  have key : channelOutOfRange l n = true ↔ l &&& ~~~(lowmask n) ≠ 0 := by
    simp [channelOutOfRange]
  rw [key]
  constructor
  · intro h
    by_contra hc
    refine h (BitVec.eq_of_getLsbD_eq fun k hk => ?_)
    simp only [BitVec.getLsbD_and, BitVec.getLsbD_not, hk, lowmask_getLsbD n k hk]
    cases hl : l.getLsbD k
    · simp
    · have : k < n.toNat := by
        by_contra hn
        exact hc ⟨k, hk, by omega, hl⟩
      simp [this]
  · rintro ⟨k, hk, hn, hl⟩ h0
    have hz : (l &&& ~~~(lowmask n)).getLsbD k = false := by rw [h0]; simp
    simp only [BitVec.getLsbD_and, BitVec.getLsbD_not, hk, lowmask_getLsbD n k hk, hl] at hz
    have : ¬ k < n.toNat := by omega
    simp [this] at hz

/-- Masking changes nothing when no lane at or above `N` is set. -/
theorem and_lowmask_eq (l : Lanes) (n : BitVec 6)
    (h : ∀ k, k < 32 → n.toNat ≤ k → l.getLsbD k = false) : l &&& lowmask n = l := by
  refine BitVec.eq_of_getLsbD_eq fun k hk => ?_
  rw [BitVec.getLsbD_and, lowmask_getLsbD _ k hk]
  by_cases hn : k < n.toNat
  · simp [hn]
  · simp [hn, h k hk (by omega)]

/-- Replacing byte `j` of a lane vector changes its eight lanes and no other. -/
theorem setLaneByte_getLsbD (l : Lanes) (j : Fin 4) (v : Byte) (k : Nat) (hk : k < 32) :
    (setLaneByte l j v).getLsbD k =
      if 3 - k / 8 = j.val then v.getLsbD (k % 8) else l.getLsbD k := by
  rw [setLaneByte, bytesToLanes_getLsbD _ k hk, Vector.getElem_set]
  split
  · rename_i h
    rw [if_pos h.symm]
  · rename_i h
    rw [if_neg (fun e => h e.symm), lanesToBytes_getLsbD l k hk]

end Sys2Proof.Machine
end

