-- ==== Sys2Proof/Laws/State.lean ====
section
/-! SUPPORT. One lemma per field of the state for each named update: `raise`, `finish`, `applyReset`. -/

namespace Sys2Proof.Machine

variable (c : Nibble) (st : Straps) (s : State)

@[simp] theorem State.raise_status : (s.raise c).status = c := rfl
@[simp] theorem State.raise_fcIn : (s.raise c).fcIn = s.fcIn := rfl
@[simp] theorem State.raise_payloadIn : (s.raise c).payloadIn = s.payloadIn := rfl
@[simp] theorem State.raise_txbuf : (s.raise c).txbuf = s.txbuf := rfl
@[simp] theorem State.raise_rxbuf : (s.raise c).rxbuf = s.rxbuf := rfl
@[simp] theorem State.raise_rxlen : (s.raise c).rxlen = s.rxlen := rfl
@[simp] theorem State.raise_rxFc : (s.raise c).rxFc = s.rxFc := rfl
@[simp] theorem State.raise_rxPayload : (s.raise c).rxPayload = s.rxPayload := rfl
@[simp] theorem State.raise_respLen : (s.raise c).respLen = s.respLen := rfl
@[simp] theorem State.raise_lanesIn : (s.raise c).lanesIn = s.lanesIn := rfl
@[simp] theorem State.raise_lanesOut : (s.raise c).lanesOut = s.lanesOut := rfl
@[simp] theorem State.raise_header : (s.raise c).header = s.header := rfl
@[simp] theorem State.raise_slaveId : (s.raise c).slaveId = s.slaveId := rfl
@[simp] theorem State.raise_branchCount : (s.raise c).branchCount = s.branchCount := rfl
@[simp] theorem State.raise_silentBase : (s.raise c).silentBase = s.silentBase := rfl
@[simp] theorem State.raise_pending : (s.raise c).pending = s.pending := rfl
@[simp] theorem State.raise_lastRead : (s.raise c).lastRead = s.lastRead := rfl

@[simp] theorem State.finish_status : (s.finish c).status = c := rfl
@[simp] theorem State.finish_fcIn : (s.finish c).fcIn = s.fcIn := rfl
@[simp] theorem State.finish_payloadIn : (s.finish c).payloadIn = s.payloadIn := rfl
@[simp] theorem State.finish_txbuf : (s.finish c).txbuf = s.txbuf := rfl
@[simp] theorem State.finish_rxbuf : (s.finish c).rxbuf = s.rxbuf := rfl
@[simp] theorem State.finish_rxlen : (s.finish c).rxlen = s.rxlen := rfl
@[simp] theorem State.finish_rxFc : (s.finish c).rxFc = s.rxFc := rfl
@[simp] theorem State.finish_rxPayload : (s.finish c).rxPayload = s.rxPayload := rfl
@[simp] theorem State.finish_respLen : (s.finish c).respLen = s.respLen := rfl
@[simp] theorem State.finish_lanesIn : (s.finish c).lanesIn = s.lanesIn := rfl
@[simp] theorem State.finish_lanesOut : (s.finish c).lanesOut = s.lanesOut := rfl
@[simp] theorem State.finish_header : (s.finish c).header = s.header := rfl
@[simp] theorem State.finish_slaveId : (s.finish c).slaveId = s.slaveId := rfl
@[simp] theorem State.finish_branchCount : (s.finish c).branchCount = s.branchCount := rfl
@[simp] theorem State.finish_silentBase : (s.finish c).silentBase = s.silentBase := rfl
@[simp] theorem State.finish_pending : (s.finish c).pending = s.pending := rfl
@[simp] theorem State.finish_lastRead : (s.finish c).lastRead = s.lastRead := rfl

@[simp] theorem State.applyReset_status : (s.applyReset st).status = 0xF := rfl
@[simp] theorem State.applyReset_fcIn : (s.applyReset st).fcIn = 0 := rfl
@[simp] theorem State.applyReset_payloadIn : (s.applyReset st).payloadIn = #v[0, 0, 0, 0] := rfl
@[simp] theorem State.applyReset_txbuf : (s.applyReset st).txbuf = #v[0, 0, 0, 0, 0, 0, 0, 0] := rfl
@[simp] theorem State.applyReset_rxbuf : (s.applyReset st).rxbuf = #v[0, 0, 0, 0, 0, 0, 0, 0] := rfl
@[simp] theorem State.applyReset_rxlen : (s.applyReset st).rxlen = 0 := rfl
@[simp] theorem State.applyReset_rxFc : (s.applyReset st).rxFc = 0 := rfl
@[simp] theorem State.applyReset_rxPayload : (s.applyReset st).rxPayload = #v[0, 0, 0, 0] := rfl
@[simp] theorem State.applyReset_respLen : (s.applyReset st).respLen = 0 := rfl
@[simp] theorem State.applyReset_lanesIn : (s.applyReset st).lanesIn = 0 := rfl
@[simp] theorem State.applyReset_lanesOut : (s.applyReset st).lanesOut = 0 := rfl
@[simp] theorem State.applyReset_header : (s.applyReset st).header = st.header := rfl
@[simp] theorem State.applyReset_slaveId : (s.applyReset st).slaveId = st.slaveId := rfl
@[simp] theorem State.applyReset_branchCount : (s.applyReset st).branchCount = clampBranch st.branchCount := rfl
@[simp] theorem State.applyReset_silentBase : (s.applyReset st).silentBase = st.silentBase := rfl
@[simp] theorem State.applyReset_pending : (s.applyReset st).pending = s.pending := rfl
@[simp] theorem State.applyReset_lastRead : (s.applyReset st).lastRead = s.lastRead := rfl

end Sys2Proof.Machine
end

