-- ==== Sys2Proof/Laws/Ops.lean ====
section
/-! SUPPORT. What the register map and its byte read and byte store do. -/

namespace Sys2Proof.Machine

/-- The address map finds every register at its offset. -/
@[simp] theorem locate_offset (r : Reg) : locate r.offset = some r := by
  cases r with
  | payloadIn j | txbuf j | rxbuf j | rxPayload j | lanesIn j | lanesOut j => revert j; decide
  | _ => rfl

/-- The address map finds nothing else: the register found at an offset has that offset. -/
theorem offset_of_locate {o : Offset} {r : Reg} (h : locate o = some r) : r.offset = o := by
  have all : ∀ o : Offset, (locate o).map Reg.offset = none ∨ (locate o).map Reg.offset = some o := by
    decide
  have := all o
  rw [h] at this
  simpa using this

theorem offset_injective : Function.Injective Reg.offset := fun a b h => by
  have := locate_offset a
  rw [h, locate_offset b] at this
  exact (Option.some.inj this).symm

/-- The reserved offsets of R52 are exactly those the address map leaves out. -/
theorem locate_eq_none_iff (o : Offset) :
    locate o = none ↔ o.toNat = 0x1E ∨ o.toNat = 0x1F ∨ 0x2C ≤ o.toNat := by
  revert o; decide

@[simp] theorem memRead_offset (s : State) (r : Reg) : memRead s r.offset = readReg s r := by
  simp [memRead]

@[simp] theorem store_offset (s : State) (v : Byte) (r : Reg) :
    store s r.offset v = writeReg s v r := by
  simp [store]

/-- The registers a host write stores into whole: the "RW" rows of R51 but RXLEN. -/
def Reg.storesByte : Reg → Bool
  | .fcIn => true
  | .payloadIn _ => true
  | .rxbuf _ => true
  | .lanesIn _ => true
  | .cmd | .status | .rxlen | .txbuf _ | .rxFc | .respLen | .branchCount | .header | .slaveId
  | .silentBase | .rxPayload _ | .lanesOut _ => false

/-- A read after a write to the same register byte gives the byte written. -/
theorem readReg_writeReg_self (s : State) (v : Byte) (r : Reg) (h : r.storesByte = true) :
    readReg (writeReg s v r) r = v := by
  cases r <;> simp_all [Reg.storesByte, readReg, writeReg, setLaneByte]

/-- RXLEN keeps the low four bits of what is written (R29). -/
theorem readReg_writeReg_rxlen (s : State) (v : Byte) :
    readReg (writeReg s v .rxlen) .rxlen = v &&& 0x0F := by
  simp only [readReg, writeReg]
  revert v
  decide

/-- A write to one register byte leaves every other register byte as it reads. -/
theorem readReg_writeReg_ne (s : State) (v : Byte) {r q : Reg} (h : q ≠ r) :
    readReg (writeReg s v r) q = readReg s q := by
  cases r <;> cases q <;> first
    | rfl
    | exact absurd rfl h
    | (rename_i a b
       have hv : a.val ≠ b.val := fun e => h (by rw [Fin.ext e])
       simp [readReg, writeReg, setLaneByte, hv])

/-- A store touches no result register, no configuration register, not STATUS and not the host side. -/
theorem writeReg_keeps (s : State) (v : Byte) (r : Reg) :
    (writeReg s v r).status = s.status ∧ (writeReg s v r).txbuf = s.txbuf ∧
    (writeReg s v r).rxFc = s.rxFc ∧ (writeReg s v r).rxPayload = s.rxPayload ∧
    (writeReg s v r).respLen = s.respLen ∧ (writeReg s v r).lanesOut = s.lanesOut ∧
    (writeReg s v r).header = s.header ∧ (writeReg s v r).slaveId = s.slaveId ∧
    (writeReg s v r).branchCount = s.branchCount ∧ (writeReg s v r).silentBase = s.silentBase ∧
    (writeReg s v r).pending = s.pending ∧ (writeReg s v r).lastRead = s.lastRead := by
  cases r <;> simp [writeReg]

theorem store_keeps (s : State) (o : Offset) (v : Byte) :
    (store s o v).status = s.status ∧ (store s o v).txbuf = s.txbuf ∧
    (store s o v).rxFc = s.rxFc ∧ (store s o v).rxPayload = s.rxPayload ∧
    (store s o v).respLen = s.respLen ∧ (store s o v).lanesOut = s.lanesOut ∧
    (store s o v).header = s.header ∧ (store s o v).slaveId = s.slaveId ∧
    (store s o v).branchCount = s.branchCount ∧ (store s o v).silentBase = s.silentBase ∧
    (store s o v).pending = s.pending ∧ (store s o v).lastRead = s.lastRead := by
  unfold store
  split
  · exact writeReg_keeps s v _
  · simp

/-- Reading does not depend on the host side of the state. -/
@[simp] theorem readReg_host (s : State) (p : List HostAccess) (b : Option Byte) (r : Reg) :
    readReg { s with pending := p, lastRead := b } r = readReg s r := by
  cases r <;> rfl

/-- Two states with the same register bytes at every offset have the same registers. -/
theorem eq_of_memRead {s t : State} (h : ∀ o, memRead s o = memRead t o)
    (hp : s.pending = t.pending) (hr : s.lastRead = t.lastRead) : s = t := by
  have hb : ∀ r, readReg s r = readReg t r := fun r => by simpa using h r.offset
  have inj : ∀ {w : Nat} (a b : BitVec w), w ≤ 8 → a.setWidth 8 = b.setWidth 8 → a = b := by
    intro w a b hw e
    have e' := congrArg BitVec.toNat e
    simp only [BitVec.toNat_setWidth] at e'
    have ha := a.isLt
    have hb := b.isLt
    have hp : 2 ^ w ≤ 2 ^ 8 := Nat.pow_le_pow_right (by omega) hw
    rw [Nat.mod_eq_of_lt (by omega), Nat.mod_eq_of_lt (by omega)] at e'
    exact BitVec.eq_of_toNat_eq e'
  have lanes : ∀ a b : Lanes, (∀ j : Fin 4, (lanesToBytes a)[j.val] = (lanesToBytes b)[j.val]) → a = b := by
    intro a b e
    rw [← bytesToLanes_lanesToBytes a, ← bytesToLanes_lanesToBytes b]
    exact congrArg bytesToLanes (Vector.ext fun i hi => e ⟨i, hi⟩)
  obtain ⟨⟩ := s
  obtain ⟨⟩ := t
  simp only at hp hr
  simp only [State.mk.injEq]
  refine ⟨inj _ _ (by omega) (hb .status), hb .fcIn, Vector.ext fun i hi => hb (.payloadIn ⟨i, hi⟩),
    Vector.ext fun i hi => hb (.txbuf ⟨i, hi⟩), Vector.ext fun i hi => hb (.rxbuf ⟨i, hi⟩),
    inj _ _ (by omega) (hb .rxlen), hb .rxFc, Vector.ext fun i hi => hb (.rxPayload ⟨i, hi⟩),
    inj _ _ (by omega) (hb .respLen), lanes _ _ fun j => hb (.lanesIn j),
    lanes _ _ fun j => hb (.lanesOut j), hb .header, hb .slaveId, inj _ _ (by omega) (hb .branchCount),
    hb .silentBase, hp, hr⟩

theorem memRead_pending (s : State) (p : List HostAccess) (o : Offset) :
    memRead { s with pending := p } o = memRead s o := by
  unfold memRead
  split
  · exact readReg_host s p s.lastRead _
  · rfl

end Sys2Proof.Machine
end

