-- ==== Sys2Proof/Laws/Meanings.lean ====
section
/-! SUPPORT. One lemma per meaning: everything it can do, case by case. -/

namespace Sys2Proof.Machine

variable {s t : State}

/-- ENC always ends with OK and writes TXBUF and STATUS only. -/
theorem execEnc_next (h : execEnc s = .next t) :
    t = { s with txbuf := mkFrame s.header s.slaveId s.fcIn s.payloadIn
                 status := StatusCode.ok } := by
  cases h; rfl

/-- DEC ends in one of three ways, told apart by its two checks (R152). -/
theorem execDec_cases (h : execDec s = .next t) :
    (frameTooShort s.rxlen = true ∧ t = s.raise StatusCode.frameTooShort) ∨
    (frameTooShort s.rxlen = false ∧ checksumMismatch s.rxbuf = true ∧
      t = s.raise StatusCode.checksumMismatch) ∨
    (frameTooShort s.rxlen = false ∧ checksumMismatch s.rxbuf = false ∧
      t = { s with rxFc := s.rxbuf[2], rxPayload := framePayload s.rxbuf
                   status := StatusCode.ok }) := by
  cases h
  cases h1 : frameTooShort s.rxlen <;> cases h2 : checksumMismatch s.rxbuf <;>
    simp [State.finish]

/-- VSL ends in one of three ways, told apart by its two checks (R152). -/
theorem execVsl_cases (h : execVsl s = .next t) :
    (responseTooShort s.rxlen = true ∧ t = s.raise StatusCode.responseTooShort) ∨
    (responseTooShort s.rxlen = false ∧ slaveIdMismatch s.rxbuf s.txbuf = true ∧
      t = s.raise StatusCode.slaveIdMismatch) ∨
    (responseTooShort s.rxlen = false ∧ slaveIdMismatch s.rxbuf s.txbuf = false ∧
      t = s.finish StatusCode.ok) := by
  cases h
  cases h1 : responseTooShort s.rxlen <;> cases h2 : slaveIdMismatch s.rxbuf s.txbuf <;> simp

/-- CLS ends in one of five ways (R104, R152). -/
theorem execCls_cases (h : execCls s = .next t) :
    (isSilent s.silentBase s.txbuf[2] = true ∧
      t = { s with respLen := 0, status := StatusCode.ok }) ∨
    (isSilent s.silentBase s.txbuf[2] = false ∧
      ((responseTooShort s.rxlen = true ∧ t = s.raise StatusCode.responseTooShort) ∨
       (responseTooShort s.rxlen = false ∧
        ((successEcho s.rxbuf s.txbuf = true ∧
            t = { s with respLen := 8, status := StatusCode.ok }) ∨
         (successEcho s.rxbuf s.txbuf = false ∧ exceptionReply s.rxbuf s.txbuf = true ∧
            t = { s with respLen := 5, status := StatusCode.exceptionResponse }) ∨
         (successEcho s.rxbuf s.txbuf = false ∧ exceptionReply s.rxbuf s.txbuf = false ∧
            t = s.raise StatusCode.desync))))) := by
  cases h
  cases h0 : isSilent s.silentBase s.txbuf[2] <;> cases h1 : responseTooShort s.rxlen <;>
    cases h2 : successEcho s.rxbuf s.txbuf <;> cases h3 : exceptionReply s.rxbuf s.txbuf <;>
    simp [State.finish, expectedLength, h0]

/-- PCK ends in one of two ways, told apart by its range check (R130). -/
theorem execPck_cases (h : execPck s = .next t) :
    (channelOutOfRange s.lanesIn s.branchCount = true ∧
      t = s.raise StatusCode.channelOutOfRange) ∨
    (channelOutOfRange s.lanesIn s.branchCount = false ∧
      t = { s with payloadIn := lanesToBytes s.lanesIn, status := StatusCode.ok }) := by
  cases h
  cases h1 : channelOutOfRange s.lanesIn s.branchCount <;> simp [State.finish]

/-- UNP always ends with OK and writes LANES_OUT and STATUS only. -/
theorem execUnp_next (h : execUnp s = .next t) :
    t = { s with lanesOut := bytesToLanes s.rxPayload &&& lowmask s.branchCount
                 status := StatusCode.ok } := by
  cases h; rfl

/-- What a command reads and writes does not touch the host side, the configuration or RXBUF and RXLEN. -/
theorem exec_keeps {i : Instr} (h : exec i s = .next t) :
    t.pending = s.pending ∧ t.lastRead = s.lastRead ∧ t.header = s.header ∧ t.slaveId = s.slaveId ∧
    t.branchCount = s.branchCount ∧ t.silentBase = s.silentBase ∧ t.rxbuf = s.rxbuf ∧
    t.rxlen = s.rxlen ∧ t.fcIn = s.fcIn ∧ t.lanesIn = s.lanesIn := by
  cases i with
  | nop => cases h; simp
  | enc => rw [execEnc_next h]; simp
  | dec => rcases execDec_cases h with ⟨-, rfl⟩ | ⟨-, -, rfl⟩ | ⟨-, -, rfl⟩ <;> simp
  | vsl => rcases execVsl_cases h with ⟨-, rfl⟩ | ⟨-, -, rfl⟩ | ⟨-, -, rfl⟩ <;> simp
  | cls =>
    rcases execCls_cases h with
      ⟨-, rfl⟩ | ⟨-, ⟨-, rfl⟩ | ⟨-, ⟨-, rfl⟩ | ⟨-, -, rfl⟩ | ⟨-, -, rfl⟩⟩⟩ <;> simp
  | pck => rcases execPck_cases h with ⟨-, rfl⟩ | ⟨-, rfl⟩ <;> simp
  | unp => rw [execUnp_next h]; simp

/-- A command does not look at the host side of the state. -/
theorem exec_host (i : Instr) (p : List HostAccess) (b : Option Byte) (h : exec i s = .next t) :
    exec i { s with pending := p, lastRead := b } = .next { t with pending := p, lastRead := b } := by
  cases i with
  | nop => cases h; rfl
  | enc => rw [execEnc_next h]; rfl
  | dec =>
    rcases execDec_cases h with ⟨h1, rfl⟩ | ⟨h1, h2, rfl⟩ | ⟨h1, h2, rfl⟩ <;>
      simp [exec, execDec, State.raise, State.finish, *]
  | vsl =>
    rcases execVsl_cases h with ⟨h1, rfl⟩ | ⟨h1, h2, rfl⟩ | ⟨h1, h2, rfl⟩ <;>
      simp [exec, execVsl, State.raise, State.finish, *]
  | cls =>
    rcases execCls_cases h with
      ⟨h1, rfl⟩ | ⟨h1, ⟨h2, rfl⟩ | ⟨h2, ⟨h3, rfl⟩ | ⟨h3, h4, rfl⟩ | ⟨h3, h4, rfl⟩⟩⟩ <;>
      simp [exec, execCls, expectedLength, State.raise, State.finish, *]
  | pck =>
    rcases execPck_cases h with ⟨h1, rfl⟩ | ⟨h1, rfl⟩ <;>
      simp [exec, execPck, State.raise, State.finish, *]
  | unp => rw [execUnp_next h]; rfl

/-- No command stops. -/
theorem exec_next (i : Instr) (s : State) : ∃ t, exec i s = .next t := by
  cases i <;> exact ⟨_, rfl⟩

end Sys2Proof.Machine
end

