-- ==== Sys2Proof/Laws/PerInstr.lean ====
section
/-! SUPPORT. Statements about every instruction, one lemma per constructor. -/

namespace Sys2Proof.Laws

/-- The command word of the instruction is read back by the decoder and by the table reader (R70, R71). -/
def WordReadsBack.Statement (i : Instr) : Prop :=
  i.wf = true ∧ decode (encode i) = .ok i ∧ decodeTableWord 8 (encode i).toNat = some i

theorem WordReadsBack.nop : WordReadsBack.Statement .nop := ⟨rfl, rfl, rfl⟩
theorem WordReadsBack.enc : WordReadsBack.Statement .enc := ⟨rfl, rfl, rfl⟩
theorem WordReadsBack.dec : WordReadsBack.Statement .dec := ⟨rfl, rfl, rfl⟩
theorem WordReadsBack.vsl : WordReadsBack.Statement .vsl := ⟨rfl, rfl, rfl⟩
theorem WordReadsBack.cls : WordReadsBack.Statement .cls := ⟨rfl, rfl, rfl⟩
theorem WordReadsBack.pck : WordReadsBack.Statement .pck := ⟨rfl, rfl, rfl⟩
theorem WordReadsBack.unp : WordReadsBack.Statement .unp := ⟨rfl, rfl, rfl⟩

end Sys2Proof.Laws
end

