-- ==== Sys2Proof/Laws/Protocol.lean ====
section
/-! SUPPORT. What the relay protocol's encoding facts compute. -/

namespace Sys2Proof.Machine

/-- Lane `j` of a group mask is set exactly when `j` is among its indices. -/
theorem groupMask_getLsbD (ks : List (Fin 32)) (j : Fin 32) :
    (groupMask ks).getLsbD j.val = decide (j ∈ ks) := by
  induction ks with
  | nil => simp [groupMask]
  | cons k ks ih =>
    rw [groupMask, BitVec.getLsbD_or, ih, BitVec.getLsbD_twoPow]
    have hk : k.val < 32 := k.isLt
    by_cases h : j = k
    · simp [h, hk]
    · have hne : k.val ≠ j.val := fun e => h (Fin.ext e.symm)
      simp [h, hne]

/-- Every name of the silent column is silent by R78, under a numbering that R79 allows. -/
theorem FcMapValid.silent {pFc : FcName → Byte} {base : Byte} (h : FcMapValid pFc base)
    {n : FcName} (hn : n.silent = true) : isSilent base (pFc n) = true :=
  h.2 n hn

end Sys2Proof.Machine
end

