-- ==== Sys2Proof/Laws/Step.lean ====
section
/-! SUPPORT. What one access and one step can do, and how sequences of accesses compose. -/

namespace Sys2Proof.Machine

variable {s t : State}

theorem decode_encode (i : Instr) : decode (encode i) = .ok i := by
  cases i <;> rfl

/-- What decoding a byte can give: the instruction whose word it is, or the byte refused by name. -/
theorem decode_cases (op : Byte) :
    (∃ i, op = encode i ∧ decode op = .ok i) ∨
    (7 ≤ op.toNat ∧ decode op = .error (.illegalCommand op)) := by
  have all : ∀ op : Byte,
      (∃ i ∈ [Instr.nop, .enc, .dec, .vsl, .cls, .pck, .unp], op = encode i) ∨ 7 ≤ op.toNat := by
    decide
  have refused : ∀ op : Byte, 7 ≤ op.toNat → opcodeMap.find? (fun r => r.accepts op) = none := by
    decide
  rcases all op with ⟨i, -, rfl⟩ | h
  · exact .inl ⟨i, rfl, decode_encode i⟩
  · exact .inr ⟨h, by simp [decode, refused op h]⟩

/-- What running a command byte can do. -/
theorem runCommand_cases {op : Byte} (h : runCommand op s = .next t) :
    (∃ i, op = encode i ∧ exec i s = .next t) ∨
    (7 ≤ op.toNat ∧ t = s.raise StatusCode.illegalCommand) := by
  rcases decode_cases op with ⟨i, rfl, hd⟩ | ⟨h7, hd⟩
  · exact .inl ⟨i, rfl, by simpa [runCommand, hd] using h⟩
  · exact .inr ⟨h7, by simpa [runCommand, hd] using h.symm⟩

@[simp] theorem runCommand_encode (i : Instr) (s : State) : runCommand (encode i) s = exec i s := by
  simp [runCommand, decode_encode]

/-- What one access can do (R54): a read changes nothing but `lastRead`, a CMD write runs a command, any
other write only stores, and reset replaces the registers. -/
theorem perform_cases {a : HostAccess} (h : perform a s = .next t) :
    (∃ o, a = .read o ∧ t = { s with lastRead := some (memRead s o) }) ∨
    (∃ op, a = cmdWrite op ∧ runCommand op s = .next t) ∨
    (∃ o v, a = .write o v ∧ o ≠ Reg.offset .cmd ∧ t = store s o v) ∨
    (∃ st, a = .reset st ∧ t = s.applyReset st) := by
  cases a with
  | read o => exact .inl ⟨o, rfl, by simpa [perform] using h.symm⟩
  | write o v =>
    by_cases ho : o = Reg.offset .cmd
    · exact .inr (.inl ⟨v, by rw [ho]; rfl, by simpa [perform, memWrite, ho] using h⟩)
    · exact .inr (.inr (.inl ⟨o, v, rfl, ho, by simpa [perform, memWrite, ho] using h.symm⟩))
  | reset st => exact .inr (.inr (.inr ⟨st, rfl, by simpa [perform] using h.symm⟩))

theorem step_nil (h : s.pending = []) : step s = .next s := by
  simp [step, h]

theorem step_cons {a : HostAccess} {rest : List HostAccess} (h : s.pending = a :: rest) :
    step s = perform a { s with pending := rest } := by
  simp [step, h]

/-- What one step can do. -/
theorem step_cases (h : step s = .next t) :
    (s.pending = [] ∧ t = s) ∨
    (∃ a rest, s.pending = a :: rest ∧ perform a { s with pending := rest } = .next t) := by
  cases hp : s.pending with
  | nil => exact .inl ⟨rfl, by simpa [step_nil hp] using h.symm⟩
  | cons a rest => exact .inr ⟨a, rest, rfl, by rwa [step_cons hp] at h⟩

theorem performAll_append (as bs : List HostAccess) (s : State) (h : performAll as s = .next t) :
    performAll (as ++ bs) s = performAll bs t := by
  induction as generalizing s with
  | nil => cases h; rfl
  | cons a rest ih =>
    simp only [List.cons_append, performAll] at h ⊢
    split at h
    · rename_i u hu
      exact ih u h
    · cases h
    · cases h

theorem performAll_cons {u : State} {a : HostAccess} (bs : List HostAccess)
    (h : perform a s = .next u) : performAll (a :: bs) s = performAll bs u := by
  simp [performAll, h]

@[simp] theorem performAll_nil (s : State) : performAll [] s = .next s := rfl

/-- A write to a register byte other than CMD stores it. -/
theorem perform_write (r : Reg) (hr : r ≠ .cmd) (v : Byte) (s : State) :
    perform (.write r.offset v) s = .next (writeReg s v r) := by
  have h : r.offset ≠ Reg.offset .cmd := fun e => hr (offset_injective e)
  rw [perform, memWrite, if_neg h, store_offset]

theorem perform_read (r : Reg) (s : State) :
    perform (.read r.offset) s = .next { s with lastRead := some (readReg s r) } := by
  simp [perform]

theorem perform_cmdWrite (i : Instr) (s : State) :
    perform (cmdWrite (encode i)) s = exec i s := by
  simp [perform, cmdWrite, memWrite]

theorem runLines_cons {u : State} {l : HostLine} (ls : List HostLine)
    (h : runLine l s = .next u) : runLines (l :: ls) s = runLines ls u := by
  simp [runLines, h]

@[simp] theorem runLines_nil (s : State) : runLines [] s = .next s := rfl

theorem runLine_command (i : Instr) (s : State) : runLine (.command i) s = exec i s := by
  simp only [runLine, HostLine.expand, performAll, perform_cmdWrite]
  cases exec i s <;> rfl

/-- No access stops. -/
theorem perform_next (a : HostAccess) (s : State) : ∃ t, perform a s = .next t := by
  cases a with
  | read o => exact ⟨_, rfl⟩
  | write o v =>
    simp only [perform, memWrite]
    split
    · rcases decode_cases v with ⟨i, rfl, -⟩ | ⟨-, h⟩
      · simpa using exec_next i s
      · simp [runCommand, h]
    · exact ⟨_, rfl⟩
  | reset st => exact ⟨_, rfl⟩

/-- An access neither reads nor writes `pending`. -/
theorem perform_pending {a : HostAccess} (p : List HostAccess) (h : perform a s = .next t) :
    t.pending = s.pending ∧
      perform a { s with pending := p } = .next { t with pending := p } := by
  rcases perform_cases h with ⟨o, rfl, rfl⟩ | ⟨op, rfl, hc⟩ | ⟨o, v, rfl, hn, rfl⟩ | ⟨st, rfl, rfl⟩
  · refine ⟨rfl, ?_⟩
    simp only [perform, memRead_pending]
  · simp only [perform, cmdWrite, memWrite, if_true]
    rcases runCommand_cases hc with ⟨i, rfl, hi⟩ | ⟨h7, rfl⟩
    · rw [runCommand_encode]
      have hk := exec_keeps hi
      refine ⟨hk.1, ?_⟩
      have hx := exec_host i p s.lastRead hi
      rwa [← hk.2.1, show ({ s with pending := p, lastRead := t.lastRead } : State) = { s with pending := p }
        by rw [hk.2.1]] at hx
    · rcases decode_cases op with ⟨i, rfl, -⟩ | ⟨-, hd⟩
      · exact absurd h7 (by cases i <;> decide)
      · exact ⟨rfl, by simp [runCommand, hd, State.raise]⟩
  · refine ⟨(store_keeps s o v).2.2.2.2.2.2.2.2.2.2.1, ?_⟩
    simp only [perform, memWrite, if_neg hn, store]
    cases locate o with
    | none => rfl
    | some r => cases r <;> rfl
  · exact ⟨rfl, rfl⟩

/-- One step of a run. -/
theorem run_succ (k : Nat) (h : step s = .next t) :
    Host.Core.run core (k + 1) s = Host.Core.run core k t := by
  have h' : core.step s = .next t := h
  simp [Host.Core.run, h']

/-- One byte of LOOPBACK's copy. -/
theorem performAll_copyTx (j : Fin 8) (f : Frame) (tl : List HostAccess) (s : State)
    (h : s.txbuf = f) :
    performAll (copyTx f j ++ tl) s =
      performAll tl { s with lastRead := some f[j.val], rxbuf := s.rxbuf.set j.val f[j.val] } := by
  subst h
  rw [copyTx, List.cons_append, List.cons_append, List.nil_append,
    performAll_cons _ (perform_read (.txbuf j) s),
    performAll_cons _ (perform_write (.rxbuf j) (by simp) _ _)]
  rfl

end Sys2Proof.Machine
end

