-- ==== Sys2Proof/Tests/Slice0.lean ====
section
/-! SUPPORT. Tests of the model: words decoded, one step at a time on small states, and a witness for the
hypotheses of every statement.  Expected values come from spec/95_test_vectors.md (the vector is named) or from
the rule named. -/

namespace Sys2Proof.Tests

open Sys2Proof.Machine

/-- The default configuration of 95_test_vectors.md, right after reset. -/
def s0 : State := State.resetWith ⟨0x55, 0x01, 8, 0x20⟩

/-- The next state, where there is one. -/
def nextOf (o : Host.Outcome State Fault Refusal) : Option State :=
  match o with
  | .next t => some t
  | .fault _ => none
  | .refused _ => none

/-- `s0` with a response of `n` bytes. -/
def withRx (f : Frame) (n : Nibble) : State := { s0 with rxbuf := f, rxlen := n }

/-- `s0` with request bytes 1 and 2, response bytes 1 and 2, and a length (vectors of 2.3 and 2.4, whose
RESP_LEN marker is 3). -/
def asked (tx1 tx2 rx1 rx2 : Byte) (n : Nibble) : State :=
  { s0 with
    txbuf := #v[0x55, tx1, tx2, 0, 0, 0, 0, 0]
    rxbuf := #v[0x55, rx1, rx2, 0, 0, 0, 0, 0]
    rxlen := n
    respLen := 3 }

/-- A valid frame (vector DC1). -/
def good : Frame := #v[0x55, 0x01, 0x10, 0x00, 0x00, 0x00, 0x05, 0x6B]

/-! ### WellFormed refuses -/

theorem test_wordWf_refuses_two_bytes : wordWf 16 0x0001 = false := by decide
theorem test_wordWf_refuses_wide_word : wordWf 8 0x100 = false := by decide
theorem test_fullSilentRange_refuses_F8 : Straps.fullSilentRange ⟨0x55, 1, 8, 0xF8⟩ = false := by decide
theorem test_line_refuses_nine_bytes :
    HostLine.wf 1 (.wrrx [0, 0, 0, 0, 0, 0, 0, 0, 0]) = false := by decide
theorem test_line_refuses_label_outside : HostLine.wf 1 (.bst 0x0 1) = false := by decide
theorem test_wf_accepts : Instr.wf .unp = true ∧ wordWf 8 0x06 = true ∧
    Straps.fullSilentRange ⟨0x55, 1, 8, 0xF7⟩ = true ∧
    HostLine.wf 2 (.wrrx [1, 2, 3, 4, 5, 6, 7, 8]) = true ∧ HostLine.wf 2 (.bst 0x0 1) = true := by
  decide

/-! ### Decoding: the words of R71, bit by bit -/

theorem test_decode_nop : decode 0b00000000 = .ok .nop := by decide
theorem test_decode_enc : decode 0b00000001 = .ok .enc := by decide
theorem test_decode_dec : decode 0b00000010 = .ok .dec := by decide
theorem test_decode_vsl : decode 0b00000011 = .ok .vsl := by decide
theorem test_decode_cls : decode 0b00000100 = .ok .cls := by decide
theorem test_decode_pck : decode 0b00000101 = .ok .pck := by decide
theorem test_decode_unp : decode 0b00000110 = .ok .unp := by decide
theorem test_decode_refuses :
    decode 0x07 = .error (.illegalCommand 0x07) ∧ decode 0xFF = .error (.illegalCommand 0xFF) ∧
    decodeTableWord 8 0x07 = none ∧ decodeTableWord 16 0x01 = none := by decide

/-! ### The commands -/

/-- AC1: NOP right after reset leaves STATUS at IDLE. -/
theorem test_nop_keeps_idle : (nextOf (exec .nop s0)).map State.status = some 0xF := by decide

/-- EN2: the sum 0x551 wraps. -/
theorem test_enc_wraps :
    (nextOf (exec .enc { s0 with fcIn := 0xFF, payloadIn := #v[0xFF, 0xFF, 0xFF, 0xFF] })).map
      (fun t => (t.txbuf, t.status)) =
      some (#v[0x55, 0x01, 0xFF, 0xFF, 0xFF, 0xFF, 0xFF, 0x51], 0x0) := by decide

/-- EN5: a point payload. -/
theorem test_enc_point :
    (nextOf (exec .enc { s0 with fcIn := 0x13, payloadIn := pointPayload 1000 5 })).map
      (fun t => t.txbuf) = some #v[0x55, 0x01, 0x13, 0x00, 0x03, 0xE8, 0x05, 0x59] := by decide

/-- DC5: a LEN of 15 is read as 8. -/
theorem test_dec_accepts_len_15 :
    (nextOf (exec .dec (withRx good 15))).map (fun t => (t.status, t.rxFc, t.rxPayload)) =
      some (0x0, 0x10, #v[0x00, 0x00, 0x00, 0x05]) := by decide

/-- DC10: the length is checked before the checksum. -/
theorem test_dec_length_first :
    (nextOf (exec .dec (withRx (good.set 7 0x6C) 3))).map (fun t => (t.status, t.rxFc)) =
      some (0x2, 0x00) := by decide

/-- VS3: the length is checked before the slave id. -/
theorem test_vsl_length_first :
    (nextOf (exec .vsl (asked 0x01 0x10 0x02 0x10 3))).map State.status = some 0x5 := by decide

/-- VS5: byte 0 is not compared. -/
theorem test_vsl_ignores_header :
    (nextOf (exec .vsl { s0 with
      txbuf := #v[0x55, 0x01, 0, 0, 0, 0, 0, 0], rxbuf := #v[0xAA, 0x01, 0, 0, 0, 0, 0, 0],
      rxlen := 5 })).map State.status = some 0x0 := by decide

/-- CL8: 0x1F is just below the silent range, and 0x9F is its exception reply. -/
theorem test_cls_exception_below_range :
    (nextOf (exec .cls (asked 0x01 0x1F 0x01 0x9F 4))).map (fun t => (t.status, t.respLen)) =
      some (0x7, 5) := by decide

/-- CL10: the silent range is cut off at 0xFF, without a wrap. -/
theorem test_cls_silent_at_top :
    (nextOf (exec .cls { asked 0x01 0xFF 0x01 0x00 0 with silentBase := 0xF8 })).map
      (fun t => (t.status, t.respLen)) = some (0x0, 0) := by decide

/-- PK6: lane 20 is out of range for a branch count of 20. -/
theorem test_pck_refuses_lane_20 :
    (nextOf (exec .pck { s0 with branchCount := 20, lanesIn := 0x00100000,
                                 payloadIn := #v[0x11, 0x22, 0x33, 0x44] })).map
      (fun t => (t.status, t.payloadIn)) = some (0x9, #v[0x11, 0x22, 0x33, 0x44]) := by decide

/-- PK4: lane 31 goes to bit 7 of PAYLOAD_IN[0]. -/
theorem test_pck_lane_31 :
    (nextOf (exec .pck { s0 with branchCount := 32, lanesIn := 0x80000001 })).map
      (fun t => t.payloadIn) = some #v[0x80, 0x00, 0x00, 0x01] := by decide

/-- UN1: channel 9 is dropped for a branch count of 8. -/
theorem test_unp_drops_channel_9 :
    (nextOf (exec .unp { s0 with rxPayload := #v[0x00, 0x00, 0x01, 0x05] })).map
      (fun t => (t.lanesOut, laneValid t)) = some (0x00000005, 0x000000FF) := by decide

/-- UN7. -/
theorem test_unp_sixteen :
    (nextOf (exec .unp { s0 with branchCount := 16, rxPayload := #v[0x00, 0x00, 0x81, 0x05] })).map
      (fun t => (t.lanesOut, laneValid t)) = some (0x00008105, 0x0000FFFF) := by decide

/-! ### Accesses, reset, a fetched word -/

/-- AC2: an illegal command value. -/
theorem test_illegal_command :
    (nextOf (step { s0 with status := 0x3, pending := [.write 0x00 0x07] })).map State.status =
      some 0xE := by decide

/-- AC7: RXLEN keeps the low four bits. -/
theorem test_rxlen_low_bits :
    (nextOf (step { s0 with pending := [.write 0x03 0xFA] })).map (fun t => memRead t 0x03) =
      some 0x0A := by decide

/-- AC11: byte 0 of LANES_IN is its bits 31:24. -/
theorem test_lanes_in_top_byte :
    (nextOf (step { s0 with pending := [.write 0x24 0x80] })).map State.lanesIn =
      some 0x80000000 := by decide

/-- AC6 and AC10: STATUS and TXBUF ignore writes. -/
theorem test_read_only_ignored :
    (nextOf (step { s0 with status := 0xE, pending := [.write 0x01 0x00] })).map State.status =
      some 0xE ∧
    (nextOf (step { s0 with txbuf := good, pending := [.write 0x08 0x00] })).map State.txbuf =
      some good := by decide

/-- P5: STATUS reads 0x0F after reset, and the branch strap 200 reads back as 32. -/
theorem test_reads_after_reset :
    (nextOf (step { s0 with pending := [.read 0x01] })).map State.lastRead = some (some 0x0F) ∧
    memRead (State.resetWith ⟨0xAA, 0x02, 200, 0xF8⟩) 0x1A = 0x20 := by decide

/-- 2.8: the reset clamp. -/
theorem test_reset_clamp :
    ([0, 7, 8, 20, 32, 33, 255].map fun b => clampBranch b) = [8, 8, 8, 20, 32, 32, 32] := by decide

/-- R180: reset in the middle of anything. -/
theorem test_reset_step :
    (nextOf (step { s0 with fcIn := 0x12, pending := [.reset ⟨0xAA, 0x02, 33, 0xF8⟩] })).map
      (fun t => (t.fcIn, t.status, t.header, t.branchCount)) = some (0x00, 0xF, 0xAA, 32) := by decide

/-- A fetched ENC runs as the first instruction after reset, for the open straps too. -/
theorem test_fetched_word_runs : step (State.reset.withFetchWord 8 0x01) = exec .enc State.reset := rfl

/-- R82, W7: the group mask of the source's example. -/
theorem test_group_payload : groupPayload [0, 2, 4, 6] = #v[0x00, 0x00, 0x00, 0x55] := by decide

/-- R81, R84 (W9). -/
theorem test_payload_layouts : onePayload 3 = #v[0x00, 0x00, 0x00, 0x03] ∧
    runAllPayload true = #v[0xFF, 0xFF, 0xFF, 0xFF] ∧ runAllPayload false = #v[0, 0, 0, 0] := by decide

/-- R11: the earliest byte is the most significant. -/
theorem test_be : be32 0x80 0x01 0x02 0x03 = 0x80010203 ∧ be24 0x00 0x03 0xE8 = 1000 := by decide

/-- R87 with P2: BST is taken on its code. -/
theorem test_bst_taken :
    (nextOf (runProgram [.bst 0x7 2, .halt, .wr (.off 0x02) 0x11] 2 (some 0)
      { s0 with status := 0x7 })).map State.fcIn = some 0x11 := by decide

/-! ### Witnesses: a state and operands that meet the hypotheses of each statement -/

theorem test_witness_OpcodeMapDecodes : 7 ≤ (0x07 : Byte).toNat ∧ 7 ≤ (0xFF : Byte).toNat := by decide
theorem test_witness_DecodeAndEncodeAgree :
    Instr.wf .cls = true ∧ decode 0x04 = .ok .cls ∧ (0x04 : Byte) = encode .cls := by decide
theorem test_witness_CmdWriteRunsDecodedCommand :
    ({ s0 with pending := [.write 0x00 0x06] } : State).pending = .write 0x00 0x06 :: [] ∧
    decode 0x06 = .ok .unp ∧ Instr.wf .unp = true ∧
    ({ s0 with pending := [.read 0x00] } : State).pending = .read 0x00 :: [] := by decide
theorem test_witness_FetchedWordRunsNext :
    decodeTableWord 8 0x00 = some .nop ∧ decodeTableWord 8 0x06 = some .unp := by decide
theorem test_witness_IllegalCommandSetsStatus :
    ({ s0 with pending := [.write 0x00 0x07] } : State).pending = .write 0x00 0x07 :: [] ∧
    0x07 ≤ (0x07 : Byte).toNat ∧ 0x07 ≤ (0xFF : Byte).toNat := by decide
theorem test_witness_NopChangesNothing :
    ({ s0 with pending := [.write 0x00 0x00] } : State).pending = .write 0x00 0x00 :: [] := by decide

/-- The three clauses of DEC at LEN 7, 8 and 8. -/
theorem test_witness_DecValidatesFrame :
    (withRx good 7).rxlen.toNat < 8 ∧
    (8 ≤ (withRx (good.set 7 0x6C) 8).rxlen.toNat ∧
      (0x6C : Byte).toNat ≠ (0x55 + 0x01 + 0x10 + 0x00 + 0x00 + 0x00 + 0x05) % 256) ∧
    (8 ≤ (withRx good 8).rxlen.toNat ∧
      good[7].toNat = (good[0].toNat + good[1].toNat + good[2].toNat + good[3].toNat +
        good[4].toNat + good[5].toNat + good[6].toNat) % 256) := by decide

/-- The three clauses of VSL at LEN 3, 4 and 4. -/
theorem test_witness_VslComparesSlaveId :
    (asked 1 0x10 2 0x10 3).rxlen.toNat < 4 ∧
    (4 ≤ (asked 1 0x10 2 0x10 4).rxlen.toNat ∧
      (asked 1 0x10 2 0x10 4).rxbuf[1] ≠ (asked 1 0x10 2 0x10 4).txbuf[1]) ∧
    (4 ≤ (asked 1 0x10 1 0x10 4).rxlen.toNat ∧
      (asked 1 0x10 1 0x10 4).rxbuf[1] = (asked 1 0x10 1 0x10 4).txbuf[1]) := by decide

/-- The silent clause of CLS at both ends of the range, and the four others just outside it. -/
theorem test_witness_ClsClassifiesResponse :
    (∀ fc ∈ [(0x20 : Byte), 0x28], s0.silentBase.toNat ≤ fc.toNat ∧ fc.toNat ≤ s0.silentBase.toNat + 8) ∧
    (∀ fc ∈ [(0x1F : Byte), 0x29],
      ¬(s0.silentBase.toNat ≤ fc.toNat ∧ fc.toNat ≤ s0.silentBase.toNat + 8)) ∧
    (asked 1 0x1F 1 0x1F 3).rxlen.toNat < 4 ∧
    (4 ≤ (asked 1 0x1F 1 0x1F 4).rxlen.toNat ∧
      (asked 1 0x1F 1 0x1F 4).rxbuf[2] = (asked 1 0x1F 1 0x1F 4).txbuf[2]) ∧
    ((asked 1 0x1F 1 0x9F 4).rxbuf[2] ≠ (asked 1 0x1F 1 0x9F 4).txbuf[2] ∧
      (asked 1 0x1F 1 0x9F 4).rxbuf[2] = (asked 1 0x1F 1 0x9F 4).txbuf[2] ||| 0x80) ∧
    ((asked 1 0x29 1 0x11 4).rxbuf[2] ≠ (asked 1 0x29 1 0x11 4).txbuf[2] ∧
      (asked 1 0x29 1 0x11 4).rxbuf[2] ≠ (asked 1 0x29 1 0x11 4).txbuf[2] ||| 0x80) := by decide

/-- The two clauses of PCK at lanes 8 and 7 for a branch count of 8. -/
theorem test_witness_PckPacksLanes :
    (∃ k, k < 32 ∧ s0.branchCount.toNat ≤ k ∧ (0x00000100 : Lanes).getLsbD k = true) ∧
    (∀ k, k < 32 → s0.branchCount.toNat ≤ k → (0x00000080 : Lanes).getLsbD k = false) :=
  ⟨⟨8, by decide⟩, by decide⟩

theorem test_witness_CommandFrame :
    (∃ t, exec .enc s0 = .next t) ∧ writesOffset .enc 0x07 = false ∧ writesOffset .enc 0x08 = true :=
  ⟨⟨_, rfl⟩, by decide, by decide⟩

theorem test_witness_StatusCodeProducers :
    (∃ t, exec .vsl s0 = .next t) ∧
    (∃ t, step { s0 with pending := [.write 0x00 0xFF] } = .next t) ∧
    (∃ t, step { s0 with pending := [.write 0x00 0x01] } = .next t ∧ t.status ≠ s0.status) ∧
    (∃ t, step { s0 with status := 0x0, pending := [.reset ⟨0, 0, 0, 0⟩] } = .next t ∧
      t.status = 0xF) :=
  ⟨⟨_, rfl⟩, ⟨_, rfl⟩, ⟨_, rfl, by decide⟩, ⟨_, rfl, by decide⟩⟩

theorem test_witness_StatusChangesOnlyByCommandOrReset :
    ∃ t, step { s0 with pending := [.write 0x00 0x01] } = .next t ∧ t.status ≠ s0.status :=
  ⟨_, rfl, by decide⟩

/-- A failing command and an illegal one. -/
theorem test_witness_FailureWritesStatusOnly :
    (∃ t, step { s0 with pending := [.write 0x00 0x02] } = .next t ∧
      t.status ∈ [(0x2 : Nibble), 0x3, 0x4, 0x5, 0x8, 0x9, 0xE]) ∧
    (∃ t, step { s0 with pending := [.write 0x00 0x07] } = .next t ∧
      t.status ∈ [(0x2 : Nibble), 0x3, 0x4, 0x5, 0x8, 0x9, 0xE]) :=
  ⟨⟨_, rfl, by decide⟩, ⟨_, rfl, by decide⟩⟩

theorem test_witness_FailedCommandsLeaveStaleResults :
    (∃ t u v, exec .dec s0 = .next t ∧ t.status ≠ 0x0 ∧ t.status ≠ 0x7 ∧
      exec .unp t = .next u ∧ exec .unp s0 = .next v) ∧
    (∃ t u v, exec .pck { s0 with lanesIn := 0x100 } = .next t ∧ t.status ≠ 0x0 ∧
      exec .enc t = .next u ∧ exec .enc { s0 with lanesIn := 0x100 } = .next v) :=
  ⟨⟨_, _, _, rfl, by decide, by decide, rfl, rfl⟩, ⟨_, _, _, rfl, by decide, rfl, rfl⟩⟩

theorem test_witness_ReadsHaveNoSideEffect :
    ({ s0 with pending := [.read 0x3F] } : State).pending = .read 0x3F :: [] := by decide

/-- Each clause at a boundary offset: 0x02, 0x03, the last bytes of PAYLOAD_IN, RXBUF and LANES_IN. -/
theorem test_witness_WritesStoreIntoRegisters :
    (∀ o : Offset, ({ s0 with pending := [.write o 0xA5] } : State).pending = .write o 0xA5 :: []) ∧
    (0x07 : Offset) = 0x04 + BitVec.ofNat 6 (3 : Fin 4).val ∧
    (0x17 : Offset) = 0x10 + BitVec.ofNat 6 (7 : Fin 8).val ∧
    (0x27 : Offset) = 0x24 + BitVec.ofNat 6 (3 : Fin 4).val := ⟨fun _ => rfl, by decide⟩

theorem test_witness_WrittenByteReadsBack :
    (∀ o ∈ [(0x04 : Offset), 0x07, 0x10, 0x17, 0x24, 0x27],
      (0x04 ≤ o.toNat ∧ o.toNat ≤ 0x07) ∨ (0x10 ≤ o.toNat ∧ o.toNat ≤ 0x17) ∨
        (0x24 ≤ o.toNat ∧ o.toNat ≤ 0x27)) ∧ (0x05 : Offset) ≠ 0x04 := by decide

/-- The ends of the read-only ranges, none of them a writable offset. -/
theorem test_witness_ReadOnlyWritesAndReservedBits :
    (∀ o ∈ [(0x08 : Offset), 0x0F, 0x18, 0x1D, 0x20, 0x23, 0x28, 0x2B],
      (0x08 ≤ o.toNat ∧ o.toNat ≤ 0x0F) ∨ (0x18 ≤ o.toNat ∧ o.toNat ≤ 0x1D) ∨
        (0x20 ≤ o.toNat ∧ o.toNat ≤ 0x23) ∨ (0x28 ≤ o.toNat ∧ o.toNat ≤ 0x2B)) ∧
    ({ s0 with pending := [.write 0x03 0xFA] } : State).pending = .write 0x03 0xFA :: [] := by decide

theorem test_witness_ReservedOffsets :
    (∀ o ∈ [(0x1E : Offset), 0x1F, 0x2C, 0x3F],
      o.toNat = 0x1E ∨ o.toNat = 0x1F ∨ 0x2C ≤ o.toNat) ∧
    ({ s0 with pending := [.read 0x1E] } : State).pending = .read 0x1E :: [] ∧
    ({ s0 with pending := [.write 0x3F 0x12] } : State).pending = .write 0x3F 0x12 :: [] := by decide

theorem test_witness_CommandsAreIdempotent :
    ∃ t u, step { s0 with pending := [.write 0x00 0x01, .write 0x00 0x01] } = .next t ∧
      step t = .next u := ⟨_, _, rfl, rfl⟩

theorem test_witness_IdleStepHoldsState : s0.pending = [] := by decide

theorem test_witness_ResetLoadsStrapsAndZeros :
    ({ s0 with pending := [.reset ⟨0xAA, 2, 200, 0xF8⟩] } : State).pending =
      .reset ⟨0xAA, 2, 200, 0xF8⟩ :: [] := by decide

theorem test_witness_ResetReplacesWholeState :
    ∃ u v, step { s0 with pending := [.reset ⟨1, 2, 3, 4⟩] } = .next u ∧
      step { s0 with fcIn := 0x12, pending := [.reset ⟨1, 2, 3, 4⟩, .read 0x01] } = .next v :=
  ⟨_, _, rfl, rfl⟩

theorem test_witness_BranchCountClamped :
    (∃ t, step s0 = .next t) ∧ 8 ≤ s0.branchCount.toNat ∧ s0.branchCount.toNat ≤ 32 :=
  ⟨⟨_, rfl⟩, by decide⟩

/-- A state a program can reach that is not the reset state (a decoded, unpacked status read, P3). -/
theorem test_witness_StepKeepsInvariant :
    State.Inv { s0 with branchCount := 16, status := 0x0, respLen := 8, lanesOut := 0x00008105,
                        txbuf := #v[0x55, 0x07, 0x01, 0, 0, 0, 0, 0x5D],
                        pending := [.write 0x00 0x06] } := by decide

theorem test_witness_ChecksumIsTruncatedSum :
    8 ≤ (withRx good 8).rxlen.toNat ∧ ∃ t, exec .dec (withRx good 8) = .next t :=
  ⟨by decide, ⟨_, rfl⟩⟩

theorem test_witness_ExpectedLengthIsZeroOrEight :
    ((0xF8 : Byte).toNat ≤ (0xFF : Byte).toNat ∧ (0xFF : Byte).toNat ≤ (0xF8 : Byte).toNat + 8) ∧
    ¬((0x20 : Byte).toNat ≤ (0x29 : Byte).toNat ∧ (0x29 : Byte).toNat ≤ (0x20 : Byte).toNat + 8) := by
  decide

theorem test_witness_SingleBitErrorDetected :
    8 ≤ (withRx good 8).rxlen.toNat ∧ good[7] = cks good ∧
    (#v[0x55, 0x01, 0x10, 0xFE, 0x01, 0x00, 0x05, 0x6A] : Frame)[7] =
      cks #v[0x55, 0x01, 0x10, 0xFE, 0x01, 0x00, 0x05, 0x6A] ∧
    (0xFE : Byte) ≠ 0xFF ∧ (0x01 : Byte) ≠ 0x00 := by decide

theorem test_witness_Bit7CodesHideExceptions :
    (0x90 : Byte).getLsbD 7 = true ∧
    ¬(s0.silentBase.toNat ≤ (0x90 : Byte).toNat ∧ (0x90 : Byte).toNat ≤ s0.silentBase.toNat + 8) ∧
    4 ≤ (asked 1 0x90 1 0x90 4).rxlen.toNat ∧
    (asked 1 0x90 1 0x90 4).rxbuf[2] = (asked 1 0x90 1 0x90 4).txbuf[2] ||| 0x80 ∧
    (nextOf (exec .cls (asked 1 0x90 1 0x90 4))).isSome = true := by decide

/-- Two exception replies that differ in bytes 0, 3 and 4. -/
theorem test_witness_ClsReadsOnlyItsOperands :
    ∃ t t', exec .cls { asked 1 0x11 1 0 5 with rxbuf := #v[0x55, 1, 0x91, 2, 0xE9, 0, 0, 0] } = .next t ∧
      exec .cls { asked 1 0x11 1 0 5 with rxbuf := #v[0, 1, 0x91, 7, 0, 0, 0, 0] } = .next t' ∧
      t.status = t'.status := ⟨_, _, rfl, rfl, by decide⟩

/-- A numbering that R79 allows, with the silent names at 0x20 to 0x28. -/
def sampleMap : FcName → Byte
  | .readStatus => 0x01
  | .onOne => 0x10
  | .offOne => 0x11
  | .flipOne => 0x12
  | .onGroup => 0x13
  | .offGroup => 0x14
  | .flipGroup => 0x15
  | .onPoint => 0x16
  | .offPoint => 0x17
  | .onOneNil => 0x20
  | .offOneNil => 0x21
  | .flipOneNil => 0x22
  | .onGroupNil => 0x23
  | .offGroupNil => 0x24
  | .flipGroupNil => 0x25
  | .onPointNil => 0x26
  | .offPointNil => 0x27
  | .runAllNil => 0x28

theorem test_witness_NamedCodesHaveTheirPlan :
    FcMapValid sampleMap s0.silentBase ∧
    (asked 1 (sampleMap .runAllNil) 0 0 0).txbuf[2] = sampleMap .runAllNil ∧
    (asked 1 (sampleMap .runAllNil) 0 0 0).rxlen = 0 ∧
    FcName.runAllNil.silent = true ∧
    (asked 1 (sampleMap .readStatus) 0 0 0).txbuf[2] = sampleMap .readStatus ∧
    (asked 1 (sampleMap .readStatus) 0 0 0).rxlen = 0 ∧
    FcName.readStatus.silent = false := by
  refine ⟨⟨fun a b h => ?_, fun n h => ?_⟩, by decide, by decide, by decide, by decide, by decide, by decide⟩
  · cases a <;> cases b <;> first | rfl | exact absurd h (by decide)
  · cases n <;> first | rfl | exact absurd h (by decide)

/-- Five bytes of a valid echo, and an exception reply of five bytes, both for request code 0x10. -/
theorem test_witness_TwoStageResponseFill :
    let f : Frame := #v[0x55, 0x01, 0x10, 0x00, 0x00, 0x00, 0x05, 0x6B]
    let s : State := { asked 1 0x10 1 0x10 4 with rxbuf := #v[0x55, 0x01, 0x10, 0x00, 0, 0, 0, 0] }
    (¬(s.silentBase.toNat ≤ s.txbuf[2].toNat ∧ s.txbuf[2].toNat ≤ s.silentBase.toNat + 8) ∧
      4 ≤ s.rxlen.toNat ∧ s.rxlen.toNat < 8 ∧ (∀ (j : Nat) (hj : j < 4), s.rxbuf[j] = f[j]) ∧
      f[2] = s.txbuf[2] ∧ f[7] = cks f) ∧
    ((asked 1 0x10 1 0x90 5).rxlen = 5 ∧ (asked 1 0x10 1 0x90 5).txbuf[2].getLsbD 7 = false ∧
      (asked 1 0x10 1 0x90 5).rxbuf[2] = (asked 1 0x10 1 0x90 5).txbuf[2] ||| 0x80) := by decide

theorem test_witness_ChannelReadsItsBit :
    1 ≤ 8 ∧ 8 ≤ 32 ∧ 8 ≤ s0.branchCount.toNat := by decide

/-- The clauses of the bijection: lane 7 admitted and lane 8 refused at 8 branches, and 32 branches. -/
theorem test_witness_PackingBijection :
    (∀ k, k < 32 → s0.branchCount.toNat ≤ k → (0x00000080 : Lanes).getLsbD k = false) ∧
    ({ s0 with branchCount := 32 } : State).branchCount.toNat = 32 ∧
    (8 < 32 ∧ s0.branchCount.toNat ≤ 8 ∧ (0x00000100 : Lanes).getLsbD 8 = true) := by decide

theorem test_witness_GroupMaskPacks :
    ({ s0 with lanesIn := groupMask [0, 7] } : State).lanesIn = groupMask [0, 7] ∧
    (∀ k ∈ [(0 : Fin 32), 7], k.val < s0.branchCount.toNat) ∧
    (∃ k ∈ [(0 : Fin 32), 8], s0.branchCount.toNat ≤ k.val) :=
  ⟨rfl, by decide, ⟨8, by decide⟩⟩

theorem test_witness_PointPayloadOnTheWire :
    ({ s0 with payloadIn := pointPayload 1000 5 } : State).payloadIn = pointPayload 1000 5 := rfl

theorem test_witness_LoadLinesLoadRegisters : ([1, 2, 3, 4, 5, 6, 7, 8] : List Byte).length ≤ 8 := by decide

theorem test_witness_BranchOnStatus : s0.status = 0xF ∧ s0.status ≠ 0x0 := by decide

end Sys2Proof.Tests
end

/-! ## Proofs: the state family (10_state.md)

What a CMD write does, and what one step can do to STATUS and to BRANCH_COUNT, each said once; then
the obligations O3, O14 and O31. -/

namespace Sys2Proof.Machine

variable {s t : State}

/-! ### A CMD write (R22, R72) -/

theorem encode_toNat_lt (i : Instr) : (encode i).toNat < 7 := by
  cases i <;> decide

theorem runCommand_of_decode {op : Byte} {i : Instr} (h : decode op = .ok i) (s : State) :
    runCommand op s = exec i s := by
  simp [runCommand, h]

theorem runCommand_of_illegal {op : Byte} (h : 7 ≤ op.toNat) (s : State) :
    runCommand op s = .next (s.raise StatusCode.illegalCommand) := by
  rcases decode_cases op with ⟨i, rfl, -⟩ | ⟨-, hd⟩
  · exact absurd h (Nat.not_le.mpr (encode_toNat_lt i))
  · simp [runCommand, hd]

theorem step_cmdWrite {op : Byte} {rest : List HostAccess} (h : s.pending = cmdWrite op :: rest) :
    step s = runCommand op { s with pending := rest } := by
  rw [step_cons h]
  rfl

/-! ### STATUS (R23, R24) -/

/-- The codes of R24's "produced by" column, command by command; NOP is the only command that keeps
STATUS. -/
theorem exec_status {i : Instr} (h : exec i s = .next t) :
    (i = .nop ∧ t.status = s.status) ∨ (i ≠ .nop ∧ t.status ∈ statusAfter i) := by
  cases i with
  | nop => cases h; exact .inl ⟨rfl, rfl⟩
  | enc => rw [execEnc_next h]; simp [statusAfter]
  | dec => rcases execDec_cases h with ⟨-, rfl⟩ | ⟨-, -, rfl⟩ | ⟨-, -, rfl⟩ <;> simp [statusAfter]
  | vsl => rcases execVsl_cases h with ⟨-, rfl⟩ | ⟨-, -, rfl⟩ | ⟨-, -, rfl⟩ <;> simp [statusAfter]
  | cls =>
    rcases execCls_cases h with
      ⟨-, rfl⟩ | ⟨-, ⟨-, rfl⟩ | ⟨-, ⟨-, rfl⟩ | ⟨-, -, rfl⟩ | ⟨-, -, rfl⟩⟩⟩ <;> simp [statusAfter]
  | pck => rcases execPck_cases h with ⟨-, rfl⟩ | ⟨-, rfl⟩ <;> simp [statusAfter]
  | unp => rw [execUnp_next h]; simp [statusAfter]

theorem statusAfter_subset_produced (i : Instr) : statusAfter i ⊆ StatusCode.produced := by
  cases i <;> decide

theorem idle_notMem_statusAfter (i : Instr) : StatusCode.idle ∉ statusAfter i := by
  cases i <;> decide

/-- All that a step can do to STATUS: keep it, leave a code of the command it runs, refuse an illegal
command, or reset. -/
theorem step_status_cases (h : step s = .next t) :
    t.status = s.status ∨
    (∃ i rest, i ≠ .nop ∧ s.pending = cmdWrite (encode i) :: rest ∧ t.status ∈ statusAfter i) ∨
    (∃ op rest, 7 ≤ op.toNat ∧ s.pending = cmdWrite op :: rest ∧
      t.status = StatusCode.illegalCommand) ∨
    (∃ st rest, s.pending = .reset st :: rest ∧ t.status = StatusCode.idle) := by
  rcases step_cases h with ⟨-, rfl⟩ | ⟨a, rest, hp, ha⟩
  · exact .inl rfl
  rcases perform_cases ha with ⟨o, -, rfl⟩ | ⟨op, rfl, hc⟩ | ⟨o, v, -, -, rfl⟩ | ⟨st, rfl, rfl⟩
  case inl => exact .inl rfl
  case inr.inl =>
    rcases runCommand_cases hc with ⟨i, rfl, hi⟩ | ⟨h7, rfl⟩
    · rcases exec_status hi with ⟨-, hs⟩ | ⟨hn, hs⟩
      · exact .inl hs
      · exact .inr (.inl ⟨i, rest, hn, hp, hs⟩)
    · exact .inr (.inr (.inl ⟨op, rest, h7, hp, rfl⟩))
  case inr.inr.inl => exact .inl (store_keeps _ o v).1
  case inr.inr.inr => exact .inr (.inr (.inr ⟨st, rest, hp, rfl⟩))

/-- A code that a step brings into STATUS is one that R24 lists as produced. -/
theorem step_status_produced (h : step s = .next t) (hne : t.status ≠ s.status) :
    t.status ∈ StatusCode.produced := by
  rcases step_status_cases h with hs | ⟨i, -, -, -, hs⟩ | ⟨-, -, -, -, hs⟩ | ⟨-, -, -, hs⟩
  · exact absurd hs hne
  · exact statusAfter_subset_produced i hs
  · rw [hs]; decide
  · rw [hs]; decide

theorem notMem_neverProduced_of_produced {c : Nibble} (h : c ∈ StatusCode.produced) :
    c ∉ [0x1, 0x6, 0xA, 0xB, 0xC, 0xD] := by
  revert c
  decide

/-- IDLE enters STATUS by reset only (R24). -/
theorem step_enters_idle (h : step s = .next t) (ht : t.status = StatusCode.idle)
    (hs : s.status ≠ StatusCode.idle) : ∃ st rest, s.pending = .reset st :: rest := by
  rcases step_status_cases h with hk | ⟨i, -, -, -, hi⟩ | ⟨-, -, -, -, hill⟩ | ⟨st, rest, hp, -⟩
  · exact absurd (hk ▸ ht) hs
  · exact absurd (ht ▸ hi) (idle_notMem_statusAfter i)
  · exact absurd (ht.symm.trans hill) (by decide)
  · exact ⟨st, rest, hp⟩

/-! ### BRANCH_COUNT (R33, R34) -/

theorem clampBranch_legal (b : Byte) :
    8 ≤ (clampBranch b).toNat ∧ (clampBranch b).toNat ≤ 32 := by
  rw [clampBranch_toNat]
  split_ifs <;> omega

/-- Only a reset writes BRANCH_COUNT, and it writes the clamp of its strap. -/
theorem step_branchCount_cases (h : step s = .next t) :
    t.branchCount = s.branchCount ∨
    (∃ st rest, s.pending = .reset st :: rest ∧ t.branchCount = clampBranch st.branchCount) := by
  rcases step_cases h with ⟨-, rfl⟩ | ⟨a, rest, hp, ha⟩
  · exact .inl rfl
  rcases perform_cases ha with ⟨o, -, rfl⟩ | ⟨op, -, hc⟩ | ⟨o, v, -, -, rfl⟩ | ⟨st, rfl, rfl⟩
  case inl => exact .inl rfl
  case inr.inl =>
    rcases runCommand_cases hc with ⟨i, -, hi⟩ | ⟨-, rfl⟩
    · obtain ⟨-, -, -, -, hb, -⟩ := exec_keeps hi
      exact .inl hb
    · exact .inl rfl
  case inr.inr.inl =>
    obtain ⟨-, -, -, -, -, -, -, -, hb, -⟩ :=
      store_keeps ({ s with pending := rest } : State) o v
    exact .inl hb
  case inr.inr.inr => exact .inr ⟨st, rest, hp, rfl⟩

theorem step_keeps_branchLegal (h : step s = .next t) (hs : s.branchLegal) : t.branchLegal := by
  rcases step_branchCount_cases h with hb | ⟨st, -, -, hb⟩
  · rwa [State.branchLegal, hb]
  · rw [State.branchLegal, hb]
    exact clampBranch_legal st.branchCount

end Sys2Proof.Machine

section

open Sys2Proof Sys2Proof.Machine

/-- Settles O14: the first clause is `exec_status`, the last two read off `step_status_cases`. -/
theorem statusCodeProducers : Obligations.StatusCodeProducers := by
  refine ⟨fun _ _ _ h => exec_status h, fun s t op rest hp h7 h => ?illegal,
    fun _ _ h hne => notMem_neverProduced_of_produced (step_status_produced h hne),
    fun _ _ h ht hs => step_enters_idle h ht hs⟩
  case illegal =>
    rw [step_cmdWrite hp, runCommand_of_illegal h7] at h
    cases h
    rfl

/-- Settles O31: the clamp's value at reset, and BRANCH_COUNT written by no step but a reset. -/
theorem branchCountClamped : Obligations.BranchCountClamped :=
  ⟨fun st => clampBranch_toNat st.branchCount, fun _ _ h hs => step_keeps_branchLegal h hs⟩

/-- Settles O3: a CMD write is `runCommand` of the byte, and offset 0x00 reads as CMD's 0x00. -/
theorem cmdWriteRunsDecodedCommand : Obligations.CmdWriteRunsDecodedCommand := by
  refine ⟨fun s op rest i hp hd _ => ?write, fun s rest hp => ?read⟩
  case write => rw [step_cmdWrite hp, runCommand_of_decode hd]
  case read => rw [step_cons hp]; exact perform_read .cmd _

end

/-! ## Proofs: the host port (20_memory.md)

A host write that stores nothing, because its register is read-only (R55) or its offset is reserved
(R52), and the bits of the port that no register holds; then the obligations O24 and O25. -/

namespace Sys2Proof.Machine

variable {s : State}

/-! ### Read-only registers (R55) -/

/-- The "RO" rows of R51. -/
def Reg.readOnly : Reg → Bool
  | .status | .txbuf _ | .rxFc | .respLen | .branchCount | .header | .slaveId | .silentBase
  | .rxPayload _ | .lanesOut _ => true
  | .cmd | .fcIn | .rxlen | .payloadIn _ | .rxbuf _ | .lanesIn _ => false

theorem writeReg_readOnly {r : Reg} (hr : r.readOnly = true) (s : State) (v : Byte) :
    writeReg s v r = s := by
  cases r with
  | cmd | fcIn | rxlen | payloadIn j | rxbuf j | lanesIn j => exact absurd hr Bool.false_ne_true
  | _ => rfl

/-- The offsets of the read-only rows of R51 are those at which the address map finds a read-only
register. -/
theorem locate_any_readOnly_iff (o : Offset) :
    (locate o).any Reg.readOnly = true ↔
      o = 0x01 ∨ (0x08 ≤ o.toNat ∧ o.toNat ≤ 0x0F) ∨ (0x18 ≤ o.toNat ∧ o.toNat ≤ 0x1D) ∨
        (0x20 ≤ o.toNat ∧ o.toNat ≤ 0x23) ∨ (0x28 ≤ o.toNat ∧ o.toNat ≤ 0x2B) := by
  revert o; decide

theorem perform_write_readOnly {o : Offset} (ho : (locate o).any Reg.readOnly = true) (v : Byte)
    (s : State) : perform (.write o v) s = .next s := by
  obtain ⟨r, hl, hr⟩ := (Option.any_eq_true _ _).mp ho
  have hcmd : r ≠ .cmd := by rintro rfl; exact Bool.false_ne_true hr
  rw [← offset_of_locate hl, perform_write r hcmd, writeReg_readOnly hr]

/-! ### Reserved bits (R55) -/

/-- A register byte that holds a field of `w` bits reads 0 from bit `w` up. -/
theorem memRead_reservedBits {w : Nat} (r : Reg) (x : BitVec w) (h : readReg s r = x.setWidth 8)
    (n : Nat) : (memRead s r.offset).extractLsb' w n = 0 := by
  rw [memRead_offset, h]
  ext i hi
  simp

/-! ### Reserved offsets (R52) -/

theorem perform_read_reserved {o : Offset} (ho : locate o = none) (s : State) :
    perform (.read o) s = .next { s with lastRead := some 0x00 } := by
  simp [perform, memRead, ho]

theorem perform_write_reserved {o : Offset} (ho : locate o = none) (v : Byte) (s : State) :
    perform (.write o v) s = .next s := by
  have hcmd : o ≠ Reg.offset .cmd := by rintro rfl; simp at ho
  simp [perform, memWrite, hcmd, store, ho]

end Sys2Proof.Machine

section

open Sys2Proof Sys2Proof.Machine

/-- Settles O24: a write at a read-only offset performs as the identity, RXLEN stores its low bits, and
each reserved field lies above the width of its register. -/
theorem readOnlyWritesAndReservedBits : Obligations.ReadOnlyWritesAndReservedBits := by
  refine ⟨fun s o v rest hp ho => ?readOnly, fun s v rest hp => ?rxlen, fun s => ?reservedBits⟩
  case readOnly => rw [step_cons hp, perform_write_readOnly ((locate_any_readOnly_iff o).mpr ho)]
  case rxlen => rw [step_cons hp]; exact perform_write .rxlen (by decide) v _
  case reservedBits =>
    exact ⟨memRead_reservedBits .status s.status rfl 4, memRead_reservedBits .rxlen s.rxlen rfl 4,
      memRead_reservedBits .respLen s.respLen rfl 4,
      memRead_reservedBits .branchCount s.branchCount rfl 2⟩

/-- Settles O25: the address map finds no register at a reserved offset. -/
theorem reservedOffsets : Obligations.ReservedOffsets := by
  intro s o rest ho
  have hl : locate o = none := (locate_eq_none_iff o).mpr ho
  exact ⟨fun hp => by rw [step_cons hp, perform_read_reserved hl],
    fun v hp => by rw [step_cons hp, perform_write_reserved hl]⟩

end

/-! ## Proofs: the encoding family (30_encoding.md)

The bytes that decode to no command, and how CLS tells the exception reply from the success echo,
which it cannot do for a request code with bit 7 set (R88); then the obligations O39, O1 and O5. -/

namespace Sys2Proof.Machine

variable {s t : State}

/-! ### Illegal bytes (R71, R72) -/

theorem decode_of_illegal {op : Byte} (h : 7 ≤ op.toNat) :
    decode op = .error (.illegalCommand op) := by
  rcases decode_cases op with ⟨i, rfl, -⟩ | ⟨-, hd⟩
  · exact absurd h (Nat.not_le.mpr (encode_toNat_lt i))
  · exact hd

/-! ### The exception flag (R76, R88) -/

/-- A code with bit 7 set absorbs the exception flag: the flag is bit 7 alone. -/
theorem or_kExcFlag_of_bit7 {fc : Byte} (h : fc.getLsbD 7 = true) : fc ||| Config.kExcFlag = fc := by
  have hflag : Config.kExcFlag = BitVec.twoPow 8 7 := rfl
  refine BitVec.eq_of_getLsbD_eq fun k hk => ?_
  rw [hflag, BitVec.getLsbD_or, BitVec.getLsbD_twoPow]
  by_cases h7 : 7 = k
  · subst h7
    rw [h, Bool.true_or]
  · simp [h7]

theorem exceptionReply_eq_successEcho {request : Frame} (h : request[2].getLsbD 7 = true)
    (response : Frame) : exceptionReply response request = successEcho response request := by
  rw [exceptionReply, successEcho, or_kExcFlag_of_bit7 h]

/-! ### CLS on an echo and on an exception reply (R104) -/

theorem execCls_of_successEcho (hsilent : isSilent s.silentBase s.txbuf[2] = false)
    (hlen : responseTooShort s.rxlen = false) (hecho : successEcho s.rxbuf s.txbuf = true) :
    execCls s = .next { s with respLen := 8, status := StatusCode.ok } := by
  simp [execCls, expectedLength, State.finish, hsilent, hlen, hecho]

/-- CLS answers EXCEPTION_RESPONSE only to a reply that is not the success echo. -/
theorem execCls_exceptionResponse (h : execCls s = .next t)
    (ht : t.status = StatusCode.exceptionResponse) :
    successEcho s.rxbuf s.txbuf = false ∧ exceptionReply s.rxbuf s.txbuf = true := by
  rcases execCls_cases h with
    ⟨-, rfl⟩ | ⟨-, ⟨-, rfl⟩ | ⟨-, ⟨-, rfl⟩ | ⟨hecho, hexc, -⟩ | ⟨-, -, rfl⟩⟩⟩
  case inr.inr.inr.inl => exact ⟨hecho, hexc⟩
  all_goals exact absurd ht (by simp)

theorem execCls_status_ne_exceptionResponse (h7 : s.txbuf[2].getLsbD 7 = true)
    (h : execCls s = .next t) : t.status ≠ StatusCode.exceptionResponse := by
  intro ht
  obtain ⟨hecho, hexc⟩ := execCls_exceptionResponse h ht
  rw [exceptionReply_eq_successEcho h7, hecho] at hexc
  exact Bool.false_ne_true hexc

end Sys2Proof.Machine

section

open Sys2Proof Sys2Proof.Machine

/-- Settles O39: on a request code with bit 7 set the exception reply is the success echo, which CLS
looks for first. -/
theorem bit7CodesHideExceptions : Obligations.Bit7CodesHideExceptions := by
  refine ⟨fun _ h7 => or_kExcFlag_of_bit7 h7, fun s h7 hns hlen hreply => ?successEcho,
    fun _ _ h7 h => execCls_status_ne_exceptionResponse h7 h,
    fun s _ => ⟨_, rfl, rfl, mkFrame_fc s.header s.slaveId s.fcIn s.payloadIn⟩⟩
  case successEcho =>
    have hsilent : isSilent s.silentBase s.txbuf[2] = false :=
      Bool.eq_false_iff.mpr (mt (isSilent_iff _ _).mp hns)
    have hlong : responseTooShort s.rxlen = false :=
      Bool.eq_false_iff.mpr (mt (responseTooShort_iff _).mp (Nat.not_lt.mpr hlen))
    have hecho : successEcho s.rxbuf s.txbuf = true := by
      rw [← exceptionReply_eq_successEcho h7]
      exact beq_iff_eq.mpr hreply
    exact execCls_of_successEcho hsilent hlong hecho

/-- Settles O1: each row's word is the word of its command, and no command has a word from 7 up. -/
theorem opcodeMapDecodes : Obligations.OpcodeMapDecodes :=
  ⟨decode_encode .nop, decode_encode .enc, decode_encode .dec, decode_encode .vsl,
    decode_encode .cls, decode_encode .pck, decode_encode .unp, fun _ h => decode_of_illegal h⟩

/-- Settles O5: a CMD write is `runCommand` of the byte, and an illegal byte only raises
ILLEGAL_COMMAND. -/
theorem illegalCommandSetsStatus : Obligations.IllegalCommandSetsStatus := by
  intro s op rest hp h7
  rw [step_cmdWrite hp, runCommand_of_illegal h7]
  rfl

end

/-! ## Proofs: the frame codec family (40_frame_codec.md)

What one changed byte does to the checksum (R75, R108), and the outcome of DEC, VSL and CLS under each
condition of R102, R103 and R104; then the obligations O8, O10, O36, O37, O38, O6, O7, O9 and O35. -/

namespace Sys2Proof.Machine

variable {s t u : State}

/-! ### The conditions that the checks decide (R75, R78, R151) -/

theorem frameTooShort_eq_false_iff (len : Nibble) : frameTooShort len = false ↔ 8 ≤ len.toNat := by
  rw [← Bool.not_eq_true, frameTooShort_iff, Nat.not_lt]

theorem responseTooShort_eq_false_iff (len : Nibble) :
    responseTooShort len = false ↔ 4 ≤ len.toNat := by
  rw [← Bool.not_eq_true, responseTooShort_iff, Nat.not_lt]

theorem checksumMismatch_eq_false_iff (f : Frame) : checksumMismatch f = false ↔ f[7] = cks f := by
  rw [← Bool.not_eq_true, checksumMismatch_iff, not_not]

theorem isSilent_eq_false_iff (base fc : Byte) :
    isSilent base fc = false ↔ ¬(base.toNat ≤ fc.toNat ∧ fc.toNat ≤ base.toNat + 8) := by
  rw [← Bool.not_eq_true, isSilent_iff]

/-- Byte 7 is the checksum, in the arithmetic of R75. -/
theorem eq_cks_iff (f : Frame) :
    f[7] = cks f ↔ f[7].toNat =
      (f[0].toNat + f[1].toNat + f[2].toNat + f[3].toNat + f[4].toNat + f[5].toNat + f[6].toNat)
        % 256 := by
  rw [← BitVec.toNat_inj, cks_toNat]

/-! ### The checksum of a frame with one byte replaced (R108) -/

/-- The truncated sum is the sum in bytes, where bytes can be subtracted again. -/
theorem cks_eq_add (f : Frame) :
    cks f = f[0] + f[1] + f[2] + f[3] + f[4] + f[5] + f[6] := by
  simp [cks, BitVec.ofNat_add]

/-- Replacing one of bytes 0 to 6 moves the checksum by the difference of the two bytes. -/
theorem cks_set {i : Nat} (hi : i < 7) (f : Frame) (b : Byte) :
    cks (f.set i b) = cks f + (b - f[i]) := by
  rw [cks_eq_add, cks_eq_add]
  interval_cases i <;> simp <;> ring

theorem cks_set_seven (f : Frame) (b : Byte) : cks (f.set 7 b) = cks f :=
  cks_congr fun j hj => Vector.getElem_set_ne _ _ (by omega)

/-- No other value of a single byte keeps a valid frame valid. -/
theorem set_checksum_ne {f : Frame} (hf : f[7] = cks f) {i : Nat} (hi : i < 8) {b : Byte}
    (hb : b ≠ f[i]) : (f.set i b)[7] ≠ cks (f.set i b) := by
  by_cases h7 : i = 7
  · subst h7
    rw [cks_set_seven, Vector.getElem_set_self, ← hf]
    exact hb
  · rw [cks_set (by omega), Vector.getElem_set_ne _ _ h7, hf]
    exact fun h => hb (sub_eq_zero.mp (left_eq_add.mp h))

/-- Flipping a bit of a byte changes the byte. -/
theorem xor_twoPow_ne (b : Byte) (k : Fin 8) : b ^^^ BitVec.twoPow 8 k.val ≠ b := by
  intro h
  have hk : (b ^^^ BitVec.twoPow 8 k.val).getLsbD k.val = b.getLsbD k.val := by rw [h]
  simp at hk

/-- One added to byte 3 and taken off byte 4 leaves the sum, and so the frame's validity, as it was. -/
theorem set_three_set_four_valid {f : Frame} (hf : f[7] = cks f) :
    ((f.set 3 (f[3] + 1)).set 4 (f[4] - 1))[7] = cks ((f.set 3 (f[3] + 1)).set 4 (f[4] - 1)) := by
  rw [cks_set (by omega), cks_set (by omega), Vector.getElem_set_ne _ _ (by decide : 4 ≠ 7),
    Vector.getElem_set_ne _ _ (by decide : 3 ≠ 7), Vector.getElem_set_ne _ _ (by decide : 3 ≠ 4), hf]
  ring

/-! ### ENC and DEC (R101, R102) -/

theorem execDec_of_frameTooShort (hlen : frameTooShort s.rxlen = true) :
    execDec s = .next { s with status := StatusCode.frameTooShort } := by
  simp [execDec, State.raise, hlen]

theorem execDec_of_checksumMismatch (hlen : frameTooShort s.rxlen = false)
    (hck : checksumMismatch s.rxbuf = true) :
    execDec s = .next { s with status := StatusCode.checksumMismatch } := by
  simp [execDec, State.raise, hlen, hck]

theorem execDec_of_valid (hlen : frameTooShort s.rxlen = false)
    (hck : checksumMismatch s.rxbuf = false) :
    execDec s = .next { s with rxFc := s.rxbuf[2], rxPayload := framePayload s.rxbuf
                               status := StatusCode.ok } := by
  simp [execDec, State.finish, hlen, hck]

theorem execDec_txbuf (h : execDec s = .next t) : t.txbuf = s.txbuf := by
  rcases execDec_cases h with ⟨-, rfl⟩ | ⟨-, -, rfl⟩ | ⟨-, -, rfl⟩ <;> rfl

/-- STATUS is no operand of DEC. -/
theorem execDec_status (c : Nibble) (s : State) : execDec { s with status := c } = execDec s := rfl

/-! ### VSL (R103) -/

theorem execVsl_of_responseTooShort (hlen : responseTooShort s.rxlen = true) :
    execVsl s = .next { s with status := StatusCode.responseTooShort } := by
  simp [execVsl, State.raise, hlen]

theorem execVsl_of_slaveIdMismatch (hlen : responseTooShort s.rxlen = false)
    (hid : slaveIdMismatch s.rxbuf s.txbuf = true) :
    execVsl s = .next { s with status := StatusCode.slaveIdMismatch } := by
  simp [execVsl, State.raise, hlen, hid]

theorem execVsl_of_slaveIdMatch (hlen : responseTooShort s.rxlen = false)
    (hid : slaveIdMismatch s.rxbuf s.txbuf = false) :
    execVsl s = .next { s with status := StatusCode.ok } := by
  simp [execVsl, State.finish, hlen, hid]

theorem execVsl_frame (h : execVsl s = .next t) : t = { s with status := t.status } := by
  rcases execVsl_cases h with ⟨-, rfl⟩ | ⟨-, -, rfl⟩ | ⟨-, -, rfl⟩ <;> rfl

/-- VSL's code depends on its operands only: RXLEN, RXBUF and TXBUF. -/
theorem execVsl_of_operands_eq (h : execVsl s = .next t) (hlen : u.rxlen = s.rxlen)
    (hrx : u.rxbuf = s.rxbuf) (htx : u.txbuf = s.txbuf) :
    execVsl u = .next { u with status := t.status } := by
  rcases execVsl_cases h with ⟨h1, rfl⟩ | ⟨h1, h2, rfl⟩ | ⟨h1, h2, rfl⟩
  · exact execVsl_of_responseTooShort (hlen ▸ h1)
  · exact execVsl_of_slaveIdMismatch (hlen ▸ h1) (hrx ▸ htx ▸ h2)
  · exact execVsl_of_slaveIdMatch (hlen ▸ h1) (hrx ▸ htx ▸ h2)

/-! ### CLS (R104, R105) -/

theorem expectedLength_of_not_isSilent {base fc : Byte} (h : isSilent base fc = false) :
    expectedLength base fc = 8 := by
  simp [expectedLength, h]

theorem execCls_of_isSilent (hsilent : isSilent s.silentBase s.txbuf[2] = true) :
    execCls s = .next { s with respLen := 0, status := StatusCode.ok } := by
  simp [execCls, State.finish, (expectedLength_eq_zero _ _).mpr hsilent]

theorem execCls_of_responseTooShort (hsilent : isSilent s.silentBase s.txbuf[2] = false)
    (hlen : responseTooShort s.rxlen = true) :
    execCls s = .next { s with status := StatusCode.responseTooShort } := by
  simp [execCls, State.raise, expectedLength_of_not_isSilent hsilent, hlen]

theorem execCls_of_exceptionReply (hsilent : isSilent s.silentBase s.txbuf[2] = false)
    (hlen : responseTooShort s.rxlen = false) (hecho : successEcho s.rxbuf s.txbuf = false)
    (hexc : exceptionReply s.rxbuf s.txbuf = true) :
    execCls s = .next { s with respLen := 5, status := StatusCode.exceptionResponse } := by
  simp [execCls, State.finish, expectedLength_of_not_isSilent hsilent, hlen, hecho, hexc]

theorem execCls_of_desync (hsilent : isSilent s.silentBase s.txbuf[2] = false)
    (hlen : responseTooShort s.rxlen = false) (hecho : successEcho s.rxbuf s.txbuf = false)
    (hexc : exceptionReply s.rxbuf s.txbuf = false) :
    execCls s = .next { s with status := StatusCode.desync } := by
  simp [execCls, State.raise, expectedLength_of_not_isSilent hsilent, hlen, hecho, hexc]

end Sys2Proof.Machine

section

open Sys2Proof Sys2Proof.Machine

/-- Settles O8: DEC's outcome under each answer of its two checks. -/
theorem decValidatesFrame : Obligations.DecValidatesFrame := by
  refine fun s => ⟨fun hlen => ?short, fun hlen hne => ?mismatch, fun hlen heq => ?valid⟩
  case short => exact execDec_of_frameTooShort ((frameTooShort_iff _).mpr hlen)
  case mismatch =>
    exact execDec_of_checksumMismatch ((frameTooShort_eq_false_iff _).mpr hlen)
      ((checksumMismatch_iff _).mpr (mt (eq_cks_iff _).mp hne))
  case valid =>
    exact execDec_of_valid ((frameTooShort_eq_false_iff _).mpr hlen)
      ((checksumMismatch_eq_false_iff _).mpr ((eq_cks_iff _).mpr heq))

/-- Settles O10: CLS's outcome under each answer of its four checks. -/
theorem clsClassifiesResponse : Obligations.ClsClassifiesResponse := by
  refine fun s => ⟨fun hsilent => execCls_of_isSilent ((isSilent_iff _ _).mpr hsilent), fun hns => ?_⟩
  have hsilent : isSilent s.silentBase s.txbuf[2] = false := (isSilent_eq_false_iff _ _).mpr hns
  refine ⟨fun hlen => ?short, fun hlen hecho => ?echo, fun hlen hecho hexc => ?exception,
    fun hlen hecho hexc => ?desync⟩
  case short => exact execCls_of_responseTooShort hsilent ((responseTooShort_iff _).mpr hlen)
  all_goals replace hlen := (responseTooShort_eq_false_iff _).mpr hlen
  case echo => exact execCls_of_successEcho hsilent hlen (beq_iff_eq.mpr hecho)
  case exception =>
    exact execCls_of_exceptionReply hsilent hlen (beq_eq_false_iff_ne.mpr hecho)
      (beq_iff_eq.mpr hexc)
  case desync =>
    exact execCls_of_desync hsilent hlen (beq_eq_false_iff_ne.mpr hecho)
      (beq_eq_false_iff_ne.mpr hexc)

/-- Settles O36: the frame that ENC builds is valid, and DEC reads from it the bytes it was built from. -/
theorem encodeDecodeRoundTrip : Obligations.EncodeDecodeRoundTrip := fun s =>
  ⟨_, rfl, _, execDec_of_valid rfl (mkFrame_valid s.header s.slaveId s.fcIn s.payloadIn),
    mkFrame_fc .., framePayload_mkFrame .., rfl⟩

/-- Settles O37: a flipped bit replaces a single byte by another, which always breaks the checksum; a
pair of changes with the same sum does not. -/
theorem singleBitErrorDetected : Obligations.SingleBitErrorDetected := by
  refine ⟨fun s i k hlen hf => ?flip, fun s hlen hf _ _ => ?pair⟩
  case flip =>
    exact execDec_of_checksumMismatch ((frameTooShort_eq_false_iff _).mpr hlen)
      ((checksumMismatch_iff _).mpr (set_checksum_ne hf i.isLt (xor_twoPow_ne _ k)))
  case pair =>
    exact ⟨_, execDec_of_valid ((frameTooShort_eq_false_iff _).mpr hlen)
      ((checksumMismatch_eq_false_iff _).mpr (set_three_set_four_valid hf)), rfl⟩

/-- Settles O38: VSL changes STATUS only, which DEC does not read, and DEC keeps all that VSL reads. -/
theorem decAndVslCommute : Obligations.DecAndVslCommute := by
  intro s
  obtain ⟨a, ha⟩ := exec_next .dec s
  obtain ⟨c, hc⟩ := exec_next .vsl s
  obtain ⟨-, -, -, -, -, -, harx, halen, -, -⟩ := exec_keeps ha
  have hatx : a.txbuf = s.txbuf := execDec_txbuf ha
  have hcs : c = { s with status := c.status } := execVsl_frame hc
  have hb : exec .vsl a = .next { a with status := c.status } :=
    execVsl_of_operands_eq hc halen harx hatx
  have hd : exec .dec c = .next a := by
    rw [hcs]
    exact ha
  exact ⟨a, _, c, a, ha, hb, hc, hd, rfl, rfl, rfl, harx, hatx, by rw [hcs], by rw [hcs]⟩

/-- Settles O6: the word 0x00 is NOP's, and NOP's meaning is the identity. -/
theorem nopChangesNothing : Obligations.NopChangesNothing :=
  ⟨fun _ => rfl, fun _ _ hp => (step_cmdWrite hp).trans (runCommand_encode .nop _)⟩

/-- Settles O7: TXBUF is `mkFrame` of the four operands, and byte 7 of it is their checksum. -/
theorem encBuildsFrame : Obligations.EncBuildsFrame := fun _ =>
  ⟨_, rfl, rfl, rfl, rfl, rfl, rfl, rfl, rfl, cks_toNat _, rfl, rfl⟩

/-- Settles O9: VSL's outcome under each answer of its two checks. -/
theorem vslComparesSlaveId : Obligations.VslComparesSlaveId := by
  refine fun s => ⟨fun hlen => ?short, fun hlen hne => ?mismatch, fun hlen heq => ?same⟩
  case short => exact execVsl_of_responseTooShort ((responseTooShort_iff _).mpr hlen)
  case mismatch =>
    exact execVsl_of_slaveIdMismatch ((responseTooShort_eq_false_iff _).mpr hlen)
      (bne_iff_ne.mpr hne)
  case same =>
    exact execVsl_of_slaveIdMatch ((responseTooShort_eq_false_iff _).mpr hlen)
      (bne_eq_false_iff_eq.mpr heq)

/-- Settles O35: `expected_length` asks only whether the code is silent. -/
theorem expectedLengthIsZeroOrEight : Obligations.ExpectedLengthIsZeroOrEight := fun base fc =>
  ⟨fun h => (expectedLength_eq_zero base fc).mpr ((isSilent_iff base fc).mpr h),
    fun h => expectedLength_of_not_isSilent ((isSilent_eq_false_iff base fc).mpr h)⟩

end

/-! ## Proofs: the channel vector family (41_channel_vector.md)

The outcome of PCK under each answer of its range check (R130), and the lanes of a word masked by the
branch count (R131); then the obligations O11 and O12. -/

namespace Sys2Proof.Machine

variable {s : State}

/-! ### PCK (R130) -/

theorem channelOutOfRange_eq_false_iff (l : Lanes) (n : BitVec 6) :
    channelOutOfRange l n = false ↔ ∀ k, k < 32 → n.toNat ≤ k → l.getLsbD k = false := by
  rw [← Bool.not_eq_true, channelOutOfRange_iff]
  push Not
  simp only [ne_eq, Bool.not_eq_true]

theorem execPck_of_channelOutOfRange (hrange : channelOutOfRange s.lanesIn s.branchCount = true) :
    execPck s = .next { s with status := StatusCode.channelOutOfRange } := by
  simp [execPck, State.raise, hrange]

theorem execPck_of_inRange (hrange : channelOutOfRange s.lanesIn s.branchCount = false) :
    execPck s = .next { s with payloadIn := lanesToBytes s.lanesIn, status := StatusCode.ok } := by
  simp [execPck, State.finish, hrange]

/-! ### UNP (R131) -/

/-- The mask keeps the lanes below `N` as they come from the four bytes, and drops those from `N` up. -/
theorem bytesToLanes_and_lowmask_getLsbD (p : Payload) (n : BitVec 6) (k : Nat) (hk : k < 32) :
    (bytesToLanes p &&& lowmask n).getLsbD k =
      (decide (k < n.toNat) && (p[3 - k / 8]'(by omega)).getLsbD (k % 8)) := by
  rw [BitVec.getLsbD_and, bytesToLanes_getLsbD p k hk, lowmask_getLsbD n k hk, Bool.and_comm]

end Sys2Proof.Machine

section

open Sys2Proof Sys2Proof.Machine

/-- Settles O11: PCK's outcome under each answer of its range check. -/
theorem pckPacksLanes : Obligations.PckPacksLanes := by
  refine fun s => ⟨fun hset => ?outOfRange, fun hclear => ?inRange⟩
  case outOfRange => exact execPck_of_channelOutOfRange ((channelOutOfRange_iff _ _).mpr hset)
  case inRange => exact execPck_of_inRange ((channelOutOfRange_eq_false_iff _ _).mpr hclear)

/-- Settles O12: UNP writes the masked word to LANES_OUT, OK to STATUS, and nothing else. -/
theorem unpUnpacksLanes : Obligations.UnpUnpacksLanes := by
  intro s
  obtain ⟨t, h⟩ := exec_next .unp s
  obtain rfl := execUnp_next h
  exact ⟨_, h, bytesToLanes_and_lowmask_getLsbD s.rxPayload s.branchCount, rfl, rfl, rfl⟩

end

/-! ## Proofs: reset and hazards (70_reset_and_hazards.md)

What a failing command keeps (R184), what a reset leaves on the host port (R180, R181), and which step
can write a configuration register (R180); then the obligations O17, O30 and O29. -/

namespace Sys2Proof.Machine

variable {s t : State}

/-! ### Failing commands and the results they leave (R184) -/

theorem execDec_failed (h : execDec s = .next t) (hfail : t.status ≠ StatusCode.ok) :
    t = { s with status := t.status } := by
  rcases execDec_cases h with ⟨-, rfl⟩ | ⟨-, -, rfl⟩ | ⟨-, -, rfl⟩
  · rfl
  · rfl
  · exact absurd rfl hfail

theorem execPck_failed (h : execPck s = .next t) (hfail : t.status ≠ StatusCode.ok) :
    t = { s with status := t.status } := by
  rcases execPck_cases h with ⟨-, rfl⟩ | ⟨-, rfl⟩
  · rfl
  · exact absurd rfl hfail

/-- EXCEPTION_RESPONSE is no failure of CLS but one of its answers, and comes with RESP_LEN. -/
theorem execCls_failed (h : execCls s = .next t) (hfail : t.status ≠ StatusCode.ok)
    (hexc : t.status ≠ StatusCode.exceptionResponse) : t = { s with status := t.status } := by
  rcases execCls_cases h with
    ⟨-, rfl⟩ | ⟨-, ⟨-, rfl⟩ | ⟨-, ⟨-, rfl⟩ | ⟨-, -, rfl⟩ | ⟨-, -, rfl⟩⟩⟩
  case inl => exact absurd rfl hfail
  case inr.inl => rfl
  case inr.inr.inl => exact absurd rfl hfail
  case inr.inr.inr.inl => exact absurd rfl hexc
  case inr.inr.inr.inr => rfl

/-- STATUS is no operand of UNP. -/
theorem execUnp_status (c : Nibble) (s : State) : execUnp { s with status := c } = execUnp s := rfl

/-- STATUS is no operand of ENC. -/
theorem execEnc_status (c : Nibble) (s : State) : execEnc { s with status := c } = execEnc s := rfl

theorem execUnp_of_execDec_failed (h : execDec s = .next t) (hfail : t.status ≠ StatusCode.ok) :
    execUnp t = execUnp s := by
  rw [execDec_failed h hfail, execUnp_status]

theorem execEnc_of_execPck_failed (h : execPck s = .next t) (hfail : t.status ≠ StatusCode.ok) :
    execEnc t = execEnc s := by
  rw [execPck_failed h hfail, execEnc_status]

/-! ### Reset (R180, R181) -/

theorem step_reset {st : Straps} {rest : List HostAccess} (h : s.pending = .reset st :: rest) :
    step s = .next (State.applyReset st { s with pending := rest }) := by
  rw [step_cons h]
  rfl

/-- After a reset the host port reads as `State.resetWith`, whatever the state before it held. -/
theorem memRead_applyReset (st : Straps) (s : State) (o : Offset) :
    memRead (s.applyReset st) o = memRead (State.resetWith st) o := by
  unfold memRead
  cases locate o with
  | none => rfl
  | some r => exact readReg_host (State.resetWith st) s.pending s.lastRead r

theorem zeroPayload_getElem : ∀ j : Fin 4, (#v[0, 0, 0, 0] : Payload)[j.val] = 0 := by
  decide

theorem zeroFrame_getElem : ∀ j : Fin 8, (#v[0, 0, 0, 0, 0, 0, 0, 0] : Frame)[j.val] = 0 := by
  decide

/-- Only a reset writes a configuration register. -/
theorem step_configuration_cases (h : step s = .next t) :
    (t.header = s.header ∧ t.slaveId = s.slaveId ∧ t.branchCount = s.branchCount ∧
      t.silentBase = s.silentBase) ∨
    ∃ st rest, s.pending = .reset st :: rest := by
  rcases step_cases h with ⟨-, rfl⟩ | ⟨a, rest, hp, ha⟩
  · exact .inl ⟨rfl, rfl, rfl, rfl⟩
  rcases perform_cases ha with ⟨o, -, rfl⟩ | ⟨op, -, hc⟩ | ⟨o, v, -, -, rfl⟩ | ⟨st, rfl, -⟩
  case inl => exact .inl ⟨rfl, rfl, rfl, rfl⟩
  case inr.inl =>
    rcases runCommand_cases hc with ⟨i, -, hi⟩ | ⟨-, rfl⟩
    · obtain ⟨-, -, hheader, hslave, hbranch, hsilent, -⟩ := exec_keeps hi
      exact .inl ⟨hheader, hslave, hbranch, hsilent⟩
    · exact .inl ⟨rfl, rfl, rfl, rfl⟩
  case inr.inr.inl =>
    obtain ⟨-, -, -, -, -, -, hheader, hslave, hbranch, hsilent, -⟩ :=
      store_keeps ({ s with pending := rest } : State) o v
    exact .inl ⟨hheader, hslave, hbranch, hsilent⟩
  case inr.inr.inr => exact .inr ⟨st, rest, hp⟩

end Sys2Proof.Machine

section

open Sys2Proof Sys2Proof.Machine

/-- Settles O17: a failing command writes STATUS only, which neither UNP nor ENC reads. -/
theorem failedCommandsLeaveStaleResults : Obligations.FailedCommandsLeaveStaleResults := by
  refine ⟨fun i s t hi h hfail hexc => ?keeps, fun s t u v h hfail hu hv => ?unp,
    fun s t u v h hfail hu hv => ?enc⟩
  case keeps =>
    rcases hi with rfl | rfl | rfl | rfl
    · exact execDec_failed h hfail
    · exact execVsl_frame h
    · exact execCls_failed h hfail hexc
    · exact execPck_failed h hfail
  case unp =>
    have huv : Host.Outcome.next u = .next v :=
      hu.symm.trans ((execUnp_of_execDec_failed h hfail).trans hv)
    exact Host.Outcome.next.inj huv
  case enc =>
    have huv : Host.Outcome.next u = .next v :=
      hu.symm.trans ((execEnc_of_execPck_failed h hfail).trans hv)
    exact Host.Outcome.next.inj huv

/-- Settles O30: after a reset each of the two machines reads as the reset state of the straps, and of
the other steps none writes a configuration register. -/
theorem resetReplacesWholeState : Obligations.ResetReplacesWholeState := by
  refine ⟨fun s t u v st rest rest' hs ht hu hv o => ?agree, fun _ _ h => step_configuration_cases h⟩
  case agree =>
    obtain rfl := Host.Outcome.next.inj ((step_reset hs).symm.trans hu)
    obtain rfl := Host.Outcome.next.inj ((step_reset ht).symm.trans hv)
    rw [memRead_applyReset, memRead_applyReset]

/-- Settles O29: the next state is `applyReset`, whose fields are the straps, the clamp, IDLE and zeros. -/
theorem resetLoadsStrapsAndZeros : Obligations.ResetLoadsStrapsAndZeros := fun _ st _ hp =>
  ⟨_, step_reset hp, rfl, rfl, rfl, clampBranch_toNat st.branchCount, rfl, rfl, zeroPayload_getElem,
    zeroFrame_getElem, zeroFrame_getElem, rfl, rfl, zeroPayload_getElem, rfl, rfl, rfl⟩

end

/-! ## Proofs: the invariant of the FCU (10_state.md, 70_reset_and_hazards.md)

Reset meets the invariant, each kind of access keeps it, and no step stops; then the obligations O33,
O32 and O18. -/

namespace Sys2Proof.Machine

variable {s t : State}

/-! ### Where the invariant comes from and what keeps it -/

theorem StatusCode.ok_produced : StatusCode.ok ∈ StatusCode.produced := by decide

theorem StatusCode.idle_produced : StatusCode.idle ∈ StatusCode.produced := by decide

theorem StatusCode.exceptionResponse_produced :
    StatusCode.exceptionResponse ∈ StatusCode.produced := by decide

theorem State.resetWith_inv (st : Straps) : (State.resetWith st).Inv :=
  ⟨clampBranch_legal st.branchCount, .inl rfl, StatusCode.idle_produced,
    fun _ _ => BitVec.getLsbD_zero, rfl⟩

theorem State.applyReset_inv (st : Straps) (s : State) : (s.applyReset st).Inv :=
  State.resetWith_inv st

theorem State.Inv.raise {c : Nibble} (hs : s.Inv) (hc : c ∈ StatusCode.produced) : (s.raise c).Inv := by
  obtain ⟨hbranch, hresp, -, hlanes, htx⟩ := hs
  exact ⟨hbranch, hresp, hc, hlanes, htx⟩

/-- A store reaches none of the registers that the invariant speaks of. -/
theorem State.Inv.store (hs : s.Inv) (o : Offset) (v : Byte) : (store s o v).Inv := by
  obtain ⟨hstatus, htx, -, -, hresp, hlanes, -, -, hbranch, -⟩ := store_keeps s o v
  simpa only [State.Inv, State.branchLegal, State.respLenLegal, State.statusLegal,
    State.lanesMasked, State.txbufValid, hstatus, htx, hresp, hlanes, hbranch] using hs

theorem mkFrame_txbufValid (h sid fc : Byte) (p : Payload) :
    (mkFrame h sid fc p)[7] = cks (mkFrame h sid fc p) :=
  (checksumMismatch_eq_false_iff _).mp (mkFrame_valid h sid fc p)

/-- A masked lane vector has no lane at or above `N` (R131). -/
theorem and_lowmask_getLsbD_of_le (l : Lanes) {n : BitVec 6} {k : Fin 32} (h : n.toNat ≤ k.val) :
    (l &&& lowmask n).getLsbD k.val = false := by
  rw [BitVec.getLsbD_and, lowmask_getLsbD n k.val k.isLt, decide_eq_false (Nat.not_lt.mpr h),
    Bool.and_false]

/-- Only ENC, CLS and UNP write a register of the invariant besides STATUS: ENC a valid frame, CLS one
of the three lengths, UNP a masked vector. -/
theorem exec_keeps_inv {i : Instr} (h : exec i s = .next t) (hs : s.Inv) : t.Inv := by
  have ⟨hbranch, hresp, _, hlanes, htx⟩ := hs
  cases i with
  | nop => cases h; exact hs
  | enc =>
    rw [execEnc_next h]
    exact ⟨hbranch, hresp, StatusCode.ok_produced, hlanes, mkFrame_txbufValid ..⟩
  | dec =>
    rcases execDec_cases h with ⟨-, rfl⟩ | ⟨-, -, rfl⟩ | ⟨-, -, rfl⟩
    · exact hs.raise (by decide)
    · exact hs.raise (by decide)
    · exact ⟨hbranch, hresp, StatusCode.ok_produced, hlanes, htx⟩
  | vsl =>
    rcases execVsl_cases h with ⟨-, rfl⟩ | ⟨-, -, rfl⟩ | ⟨-, -, rfl⟩ <;>
      exact hs.raise (by decide)
  | cls =>
    rcases execCls_cases h with
      ⟨-, rfl⟩ | ⟨-, ⟨-, rfl⟩ | ⟨-, ⟨-, rfl⟩ | ⟨-, -, rfl⟩ | ⟨-, -, rfl⟩⟩⟩
    · exact ⟨hbranch, .inl rfl, StatusCode.ok_produced, hlanes, htx⟩
    · exact hs.raise (by decide)
    · exact ⟨hbranch, .inr (.inr rfl), StatusCode.ok_produced, hlanes, htx⟩
    · exact ⟨hbranch, .inr (.inl rfl), StatusCode.exceptionResponse_produced, hlanes, htx⟩
    · exact hs.raise (by decide)
  | pck =>
    rcases execPck_cases h with ⟨-, rfl⟩ | ⟨-, rfl⟩
    · exact hs.raise (by decide)
    · exact ⟨hbranch, hresp, StatusCode.ok_produced, hlanes, htx⟩
  | unp =>
    rw [execUnp_next h]
    exact ⟨hbranch, hresp, StatusCode.ok_produced, fun k hk => and_lowmask_getLsbD_of_le _ hk, htx⟩

theorem runCommand_keeps_inv {op : Byte} (h : runCommand op s = .next t) (hs : s.Inv) : t.Inv := by
  rcases runCommand_cases h with ⟨i, -, hi⟩ | ⟨-, rfl⟩
  · exact exec_keeps_inv hi hs
  · exact hs.raise (by decide)

theorem perform_keeps_inv {a : HostAccess} (h : perform a s = .next t) (hs : s.Inv) : t.Inv := by
  rcases perform_cases h with ⟨o, -, rfl⟩ | ⟨op, -, hc⟩ | ⟨o, v, -, -, rfl⟩ | ⟨st, -, rfl⟩
  · exact hs
  · exact runCommand_keeps_inv hc hs
  · exact hs.store o v
  · exact State.applyReset_inv st s

theorem step_keeps_inv (h : step s = .next t) (hs : s.Inv) : t.Inv := by
  rcases step_cases h with ⟨-, rfl⟩ | ⟨a, rest, -, ha⟩
  · exact hs
  · exact perform_keeps_inv ha hs

/-- No step stops (R58). -/
theorem step_next (s : State) : ∃ t, step s = .next t := by
  cases hp : s.pending with
  | nil => exact ⟨s, step_nil hp⟩
  | cons a rest => rw [step_cons hp]; exact perform_next a _

end Sys2Proof.Machine

section

open Sys2Proof Sys2Proof.Machine

/-- Settles O33: each kind of access keeps the invariant, a command through `exec_keeps_inv`, and no
step stops. -/
theorem stepKeepsInvariant : Obligations.StepKeepsInvariant := by
  intro s hs
  obtain ⟨t, h⟩ := step_next s
  exact ⟨t, h, step_keeps_inv h hs⟩

/-- Settles O32: the clamp gives a legal branch count, and the zeros meet the rest. -/
theorem resetMeetsInvariant : Obligations.ResetMeetsInvariant :=
  ⟨State.resetWith_inv, State.resetWith_inv Config.straps⟩

/-- Settles O18: every step answers a next state. -/
theorem noAccessFaults : Obligations.NoAccessFaults := step_next

end

/-! ## Proofs: commands, errors and the queue (10_state.md, 20_memory.md)

Which registers a command writes (R20), what a failing command leaves (R153), why a repeated command
changes nothing (R54), and the queue performed in the host's order (R59); then the obligations O13, O15,
O16, O26, O27, O4, O21 and O28. -/

namespace Sys2Proof.Machine

variable {s t u : State}

/-! ### The registers a command writes (R20) -/

/-- The registers that the "written by" column of R20 gives a command; STATUS for every command but
NOP. -/
def commandWrites : Instr → Reg → Bool
  | .enc, .status | .enc, .txbuf _ => true
  | .dec, .status | .dec, .rxFc | .dec, .rxPayload _ => true
  | .vsl, .status => true
  | .cls, .status | .cls, .respLen => true
  | .pck, .status | .pck, .payloadIn _ => true
  | .unp, .status | .unp, .lanesOut _ => true
  | _, _ => false

/-- `writesOffset` names the offsets of the registers that a command writes. -/
theorem writesOffset_eq (i : Instr) (o : Offset) : writesOffset i o = (locate o).any (commandWrites i) := by
  cases i <;> (revert o; decide)

theorem readReg_raise (c : Nibble) (s : State) {r : Reg} (hr : r ≠ .status) :
    readReg (s.raise c) r = readReg s r := by
  cases r with
  | status => exact absurd rfl hr
  | _ => rfl

theorem ne_status_of_commandWrites {i : Instr} {r : Reg} (hr : commandWrites i r = false)
    (hi : i ≠ .nop) : r ≠ .status := by
  rintro rfl
  cases i with
  | nop => exact hi rfl
  | _ => exact Bool.noConfusion hr

/-- CLS writes RESP_LEN and STATUS only. -/
theorem execCls_frame (h : execCls s = .next t) :
    t = { s with respLen := t.respLen, status := t.status } := by
  rcases execCls_cases h with
    ⟨-, rfl⟩ | ⟨-, ⟨-, rfl⟩ | ⟨-, ⟨-, rfl⟩ | ⟨-, -, rfl⟩ | ⟨-, -, rfl⟩⟩⟩ <;> rfl

/-- A register that a command does not write reads as before it. -/
theorem readReg_exec {i : Instr} (h : exec i s = .next t) {r : Reg} (hr : commandWrites i r = false) :
    readReg t r = readReg s r := by
  cases i with
  | nop => cases h; rfl
  | enc =>
    rw [execEnc_next h]
    cases r with
    | status | txbuf j => exact Bool.noConfusion hr
    | _ => rfl
  | dec =>
    have hne := ne_status_of_commandWrites hr (by decide)
    rcases execDec_cases h with ⟨-, rfl⟩ | ⟨-, -, rfl⟩ | ⟨-, -, rfl⟩
    · exact readReg_raise _ s hne
    · exact readReg_raise _ s hne
    · cases r with
      | status | rxFc | rxPayload j => exact Bool.noConfusion hr
      | _ => rfl
  | vsl =>
    rw [execVsl_frame h]
    exact readReg_raise _ s (ne_status_of_commandWrites hr (by decide))
  | cls =>
    rw [execCls_frame h]
    cases r with
    | status | respLen => exact Bool.noConfusion hr
    | _ => rfl
  | pck =>
    rcases execPck_cases h with ⟨-, rfl⟩ | ⟨-, rfl⟩
    · exact readReg_raise _ s (ne_status_of_commandWrites hr (by decide))
    · cases r with
      | status | payloadIn j => exact Bool.noConfusion hr
      | _ => rfl
  | unp =>
    rw [execUnp_next h]
    cases r with
    | status | lanesOut j => exact Bool.noConfusion hr
    | _ => rfl

/-- Two states read alike at an offset where they agree on the register found there. -/
theorem memRead_congr {o : Offset} (h : ∀ r, locate o = some r → readReg t r = readReg s r) :
    memRead t o = memRead s o := by
  cases hl : locate o with
  | none => simp [memRead, hl]
  | some r => simpa [memRead, hl] using h r hl

theorem memRead_exec {i : Instr} (h : exec i s = .next t) {o : Offset} (ho : writesOffset i o = false) :
    memRead t o = memRead s o := by
  refine memRead_congr fun r hl => readReg_exec h ?_
  simpa [writesOffset_eq, hl] using ho

/-! ### Failing commands (R153) -/

theorem encode_ne_zero {i : Instr} (hi : i ≠ .nop) : encode i ≠ 0x00 := by
  cases i with
  | nop => exact absurd rfl hi
  | _ => decide


/-- A command that ends with an error code has written STATUS only; EXCEPTION_RESPONSE is an answer of
CLS and no error (R104). -/
theorem exec_failed {i : Instr} (h : exec i s = .next t) (hfail : t.status ≠ StatusCode.ok)
    (hexc : t.status ≠ StatusCode.exceptionResponse) : t = { s with status := t.status } := by
  cases i with
  | nop => cases h; rfl
  | enc => exact absurd (by rw [execEnc_next h]) hfail
  | dec => exact execDec_failed h hfail
  | vsl => exact execVsl_frame h
  | cls => exact execCls_failed h hfail hexc
  | pck => exact execPck_failed h hfail
  | unp => exact absurd (by rw [execUnp_next h]) hfail

theorem runCommand_failed {op : Byte} (h : runCommand op s = .next t)
    (hfail : t.status ≠ StatusCode.ok) (hexc : t.status ≠ StatusCode.exceptionResponse) :
    t = { s with status := t.status } := by
  rcases runCommand_cases h with ⟨i, -, hi⟩ | ⟨-, rfl⟩
  · exact exec_failed hi hfail hexc
  · rfl

/-- The error codes of R24 are none of the answers OK and EXCEPTION_RESPONSE. -/
theorem errorCode_ne_answer : ∀ c ∈ [(0x2 : Nibble), 0x3, 0x4, 0x5, 0x8, 0x9, 0xE],
    c ≠ StatusCode.ok ∧ c ≠ StatusCode.exceptionResponse := by
  decide

/-! ### A repeated command (R54) -/

theorem exec_idempotent {i : Instr} (h : exec i s = .next t) : exec i t = .next t := by
  cases i with
  | nop => rfl
  | enc => rw [execEnc_next h]; rfl
  | dec =>
    rcases execDec_cases h with ⟨hlen, rfl⟩ | ⟨hlen, hck, rfl⟩ | ⟨hlen, hck, rfl⟩
    · exact execDec_of_frameTooShort hlen
    · exact execDec_of_checksumMismatch hlen hck
    · exact execDec_of_valid hlen hck
  | vsl => 
    have ht := execVsl_frame h
    exact execVsl_of_operands_eq h (by rw [ht]) (by rw [ht]) (by rw [ht])
  | cls =>
    rcases execCls_cases h with
      ⟨hsilent, rfl⟩ | ⟨hsilent, ⟨hlen, rfl⟩ | ⟨hlen, ⟨hecho, rfl⟩ | ⟨hecho, hexc, rfl⟩ |
        ⟨hecho, hexc, rfl⟩⟩⟩
    · exact execCls_of_isSilent hsilent
    · exact execCls_of_responseTooShort hsilent hlen
    · exact execCls_of_successEcho hsilent hlen hecho
    · exact execCls_of_exceptionReply hsilent hlen hecho hexc
    · exact execCls_of_desync hsilent hlen hecho hexc
  | pck =>
    rcases execPck_cases h with ⟨hrange, rfl⟩ | ⟨hrange, rfl⟩
    · exact execPck_of_channelOutOfRange hrange
    · exact execPck_of_inRange hrange
  | unp => rw [execUnp_next h]; rfl

theorem runCommand_idempotent {op : Byte} (h : runCommand op s = .next t) :
    runCommand op t = .next t := by
  rcases runCommand_cases h with ⟨i, rfl, hi⟩ | ⟨h7, rfl⟩
  · rw [runCommand_encode]
    exact exec_idempotent hi
  · rw [runCommand_of_illegal h7]
    rfl

theorem perform_cmdWrite_idempotent {op : Byte} (h : perform (cmdWrite op) s = .next t) :
    perform (cmdWrite op) t = .next t :=
  runCommand_idempotent h

/-! ### The queue (R59) -/

theorem State.with_pending_of_eq {p : List HostAccess} (h : s.pending = p) :
    { s with pending := p } = s := by
  rw [← h]

/-- Running a queue placed in a state with none is performing it on that state. -/
theorem run_eq_performAll (as : List HostAccess) (hs : s.pending = []) :
    Host.Core.run core as.length { s with pending := as } = performAll as s := by
  induction as generalizing s with
  | nil => rw [State.with_pending_of_eq hs]; rfl
  | cons a rest ih =>
    obtain ⟨t, ht⟩ := perform_next a s
    obtain ⟨hp, hperform⟩ := perform_pending rest ht
    have hstep : step { s with pending := a :: rest } = .next { t with pending := rest } :=
      (step_cons rfl).trans hperform
    rw [List.length_cons, run_succ _ hstep, ih (hp.trans hs), performAll_cons rest ht]

/-! ### A fetched word (R22) -/

theorem decode_of_decodeTableWord {w : Nat} {i : Instr} (h : decodeTableWord 8 w = some i) :
    decode (BitVec.ofNat 8 w) = .ok i := by
  unfold decodeTableWord at h
  split at h
  · split at h
    · rename_i j hj
      rwa [Option.some.inj h] at hj
    · cases h
  · cases h

theorem step_withFetchWord (s : State) (w : Nat) :
    step (s.withFetchWord 8 w) = runCommand (BitVec.ofNat 8 w) s := by
  have hword : BitVec.ofNat 8 (w % 2 ^ 8) = BitVec.ofNat 8 w :=
    BitVec.eq_of_toNat_eq (by simp)
  rw [step_cmdWrite rfl, hword]
  rfl

end Sys2Proof.Machine

section

open Sys2Proof Sys2Proof.Machine

/-- Settles O13: an offset outside `writesOffset` finds no register that the command writes. -/
theorem commandFrame : Obligations.CommandFrame := by
  intro i s t h
  obtain ⟨hpending, hlast, -⟩ := exec_keeps h
  exact ⟨fun o ho => memRead_exec h ho, hpending, hlast⟩

/-- Settles O15: of the steps that `step_status_cases` lists, those that change STATUS. -/
theorem statusChangesOnlyByCommandOrReset : Obligations.StatusChangesOnlyByCommandOrReset := by
  intro s t h hne
  rcases step_status_cases h with
    hs | ⟨i, rest, hi, hp, -⟩ | ⟨op, rest, h7, hp, -⟩ | ⟨st, rest, hp, -⟩
  · exact absurd hs hne
  · exact .inl ⟨encode i, rest, hp, encode_ne_zero hi⟩
  · exact .inl ⟨op, rest, hp, by rintro rfl; exact absurd h7 (by decide)⟩
  · exact .inr ⟨st, rest, hp⟩

/-- Settles O16: none of the listed codes is OK or EXCEPTION_RESPONSE, and with any other a command
has written STATUS only. -/
theorem failureWritesStatusOnly : Obligations.FailureWritesStatusOnly := by
  intro s t op rest hp _ h hcode
  obtain ⟨hfail, hexc⟩ := errorCode_ne_answer t.status hcode
  exact runCommand_failed ((step_cmdWrite hp).symm.trans h) hfail hexc

/-- Settles O26: a command's own outcome is a state that it leaves alone, and no command reads the
queue. -/
theorem commandsAreIdempotent : Obligations.CommandsAreIdempotent := by
  intro s t u op rest hp ht hu
  have hperform := (step_cons hp).symm.trans ht
  obtain ⟨hpending, -⟩ := perform_pending [] hperform
  obtain ⟨-, hagain⟩ := perform_pending rest (perform_cmdWrite_idempotent hperform)
  exact Host.Outcome.next.inj ((hu.symm.trans (step_cons hpending)).trans hagain)

/-- Settles O27: by induction on the queue. -/
theorem queueRunsInHostOrder : Obligations.QueueRunsInHostOrder :=
  fun as s => run_eq_performAll (s := { s with pending := [] }) as rfl

/-- Settles O4: the word is a CMD write at the front of the queue, and the step takes it off again. -/
theorem fetchedWordRunsNext : Obligations.FetchedWordRunsNext := fun s w _ h =>
  (step_withFetchWord s w).trans (runCommand_of_decode (decode_of_decodeTableWord h) s)

/-- Settles O21: performing a read is recording the byte it returns. -/
theorem readsHaveNoSideEffect : Obligations.ReadsHaveNoSideEffect := by
  intro s o rest hp
  rw [step_cons hp, perform, memRead_pending]

/-- Settles O28: with no access to come a step is the identity. -/
theorem idleStepHoldsState : Obligations.IdleStepHoldsState := fun _ hp => step_nil hp

end

/-! ## Proofs: codes, checksum and classification (30_encoding.md, 40_frame_codec.md)

CLS as a function of its operands (R104, R163), the silent codes counted (R78) and told from the others
(R79); then the obligations O34, O40, O41, O42, O43 and O2. -/

namespace Sys2Proof.Machine

variable {s t u : State}

/-! ### What CLS reads (R104, R163) -/

/-- CLS's code and RESP_LEN depend on its operands only: byte 2 of TXBUF and of RXBUF, SILENT_BASE,
RXLEN, and RESP_LEN where CLS keeps it. -/
theorem execCls_of_operands_eq (h : execCls s = .next t) (htx : u.txbuf[2] = s.txbuf[2])
    (hbase : u.silentBase = s.silentBase) (hlen : u.rxlen = s.rxlen)
    (hrx : u.rxbuf[2] = s.rxbuf[2]) (hresp : u.respLen = s.respLen) :
    execCls u = .next { u with respLen := t.respLen, status := t.status } := by
  have hsilentEq : isSilent u.silentBase u.txbuf[2] = isSilent s.silentBase s.txbuf[2] := by
    rw [hbase, htx]
  have hechoEq : successEcho u.rxbuf u.txbuf = successEcho s.rxbuf s.txbuf := by
    rw [successEcho, successEcho, hrx, htx]
  have hexcEq : exceptionReply u.rxbuf u.txbuf = exceptionReply s.rxbuf s.txbuf := by
    rw [exceptionReply, exceptionReply, hrx, htx]
  rcases execCls_cases h with
    ⟨hsilent, rfl⟩ | ⟨hsilent, ⟨hshort, rfl⟩ | ⟨hlong, ⟨hecho, rfl⟩ | ⟨hecho, hexc, rfl⟩ |
      ⟨hecho, hexc, rfl⟩⟩⟩
  · exact execCls_of_isSilent (hsilentEq.trans hsilent)
  · rw [State.raise_respLen, ← hresp]
    exact execCls_of_responseTooShort (hsilentEq.trans hsilent) (hlen ▸ hshort)
  · exact execCls_of_successEcho (hsilentEq.trans hsilent) (hlen ▸ hlong) (hechoEq.trans hecho)
  · exact execCls_of_exceptionReply (hsilentEq.trans hsilent) (hlen ▸ hlong) (hechoEq.trans hecho)
      (hexcEq.trans hexc)
  · rw [State.raise_respLen, ← hresp]
    exact execCls_of_desync (hsilentEq.trans hsilent) (hlen ▸ hlong) (hechoEq.trans hecho)
      (hexcEq.trans hexc)

/-! ### The silent range (R78, R79) -/

/-- The silent codes as numbers: an interval that ends with the byte 0xFF at the latest. -/
def silentCodes (base : Byte) : Finset Nat :=
  Finset.Ico base.toNat (min (base.toNat + 9) 256)

theorem toNat_mem_silentCodes_iff (base fc : Byte) :
    fc.toNat ∈ silentCodes base ↔ isSilent base fc = true := by
  have hfc := fc.isLt
  rw [isSilent_iff, silentCodes, Finset.mem_Ico]
  omega

theorem card_silentCodes (base : Byte) :
    (silentCodes base).card = if base.toNat ≤ 0xF7 then 9 else 256 - base.toNat := by
  have hbase := base.isLt
  rw [silentCodes, Nat.card_Ico]
  split <;> omega

theorem silentCodes_subset_range (base : Byte) : silentCodes base ⊆ Finset.range 256 := fun _ hn =>
  Finset.mem_range.mpr (lt_of_lt_of_le (Finset.mem_Ico.mp hn).2 (min_le_right _ _))

theorem countP_isSilent (base : Byte) :
    (List.range 256).countP (fun n => isSilent base (BitVec.ofNat 8 n)) = (silentCodes base).card := by
  have hmem : ∀ n ∈ List.range 256,
      isSilent base (BitVec.ofNat 8 n) = true ↔ n ∈ silentCodes base := by
    intro n hn
    rw [← toNat_mem_silentCodes_iff, BitVec.toNat_ofNat, Nat.mod_eq_of_lt (List.mem_range.mp hn)]
  calc (List.range 256).countP (fun n => isSilent base (BitVec.ofNat 8 n))
      = Nat.count (· ∈ silentCodes base) 256 := List.countP_congr fun n hn => by
        rw [hmem n hn, decide_eq_true_iff]
    _ = (silentCodes base).card := by
        rw [Nat.count_eq_card_filter_range, Finset.filter_mem_eq_inter,
          Finset.inter_eq_right.mpr (silentCodes_subset_range base)]

/-- The "silent" column of R79, as a set. -/
def silentNames : Finset FcName :=
  {.onOneNil, .offOneNil, .flipOneNil, .onGroupNil, .offGroupNil, .flipGroupNil, .onPointNil,
    .offPointNil, .runAllNil}

theorem mem_silentNames (n : FcName) : n ∈ silentNames ↔ n.silent = true := by
  cases n <;> decide

theorem card_silentNames : silentNames.card = 9 := rfl

/-- The nine silent names take up the nine codes of the silent range, so no other name is silent
(R79). -/
theorem FcMapValid.not_silent {pFc : FcName → Byte} {base : Byte} (h : FcMapValid pFc base)
    {n : FcName} (hn : n.silent = false) : isSilent base (pFc n) = false := by
  obtain ⟨hinj, hsilent⟩ := h
  by_contra hc
  have hnew : n ∉ silentNames := by rw [mem_silentNames, hn]; exact Bool.false_ne_true
  have hmaps : ∀ m ∈ insert n silentNames, (pFc m).toNat ∈ silentCodes base := by
    intro m hm
    rw [toNat_mem_silentCodes_iff]
    rcases Finset.mem_insert.mp hm with rfl | hm
    · exact Bool.eq_true_of_not_eq_false hc
    · exact hsilent m ((mem_silentNames m).mp hm)
  have hcard : (insert n silentNames).card ≤ (silentCodes base).card :=
    Finset.card_le_card_of_injOn _ hmaps fun a _ b _ hab => hinj (BitVec.eq_of_toNat_eq hab)
  rw [Finset.card_insert_of_notMem hnew, card_silentNames, card_silentCodes] at hcard
  split at hcard <;> omega

/-! ### The exception flag on a code without it (R76) -/

theorem or_kExcFlag_ne {fc : Byte} (h : fc.getLsbD 7 = false) : fc ||| Config.kExcFlag ≠ fc := by
  intro he
  have h7 : (fc ||| Config.kExcFlag).getLsbD 7 = true := by
    rw [BitVec.getLsbD_or, h]; rfl
  rw [he, h] at h7
  exact Bool.false_ne_true h7

end Sys2Proof.Machine

section

open Sys2Proof Sys2Proof.Machine

/-- Settles O34: DEC on a frame of 8 bytes ends with OK exactly where its checksum check passes. -/
theorem checksumIsTruncatedSum : Obligations.ChecksumIsTruncatedSum := by
  refine ⟨cks_toNat, fun s t hlen h => ?_⟩
  have hlong : frameTooShort s.rxlen = false := (frameTooShort_eq_false_iff _).mpr hlen
  rw [← checksumMismatch_eq_false_iff]
  rcases execDec_cases h with ⟨hshort, -⟩ | ⟨-, hck, rfl⟩ | ⟨-, hck, rfl⟩
  · exact absurd (hlong.symm.trans hshort) Bool.false_ne_true
  · simp [hck]
  · simp [hck]

/-- Settles O40: CLS's code and RESP_LEN are functions of its operands. -/
theorem clsReadsOnlyItsOperands : Obligations.ClsReadsOnlyItsOperands := by
  intro s s' t t' htx hbase hlen hrx hresp h h'
  have hs' := execCls_of_operands_eq h htx.symm hbase.symm hlen.symm hrx.symm hresp.symm
  obtain rfl := Host.Outcome.next.inj (h'.symm.trans hs')
  exact ⟨rfl, rfl⟩

/-- Settles O41: the silent codes are an interval, cut off at 0xFF where it starts above 0xF7. -/
theorem silentRangeSize : Obligations.SilentRangeSize := fun base =>
  (countP_isSilent base).trans (card_silentCodes base)

/-- Settles O42: by the pigeonhole of `FcMapValid.not_silent` the other names are outside the silent
range, where a length of 0 is too short. -/
theorem namedCodesHaveTheirPlan : Obligations.NamedCodesHaveTheirPlan := by
  refine fun pFc s n hmap htx hlen => ⟨fun hn => ?silent, fun hn => ?other⟩
  case silent => exact execCls_of_isSilent (htx ▸ hmap.silent hn)
  case other =>
    exact execCls_of_responseTooShort (htx ▸ hmap.not_silent hn) (by rw [hlen]; rfl)

/-- Settles O43: CLS reads RXBUF up to byte 2 only, and DEC waits for RXLEN to be 8. -/
theorem twoStageResponseFill : Obligations.TwoStageResponseFill := by
  refine ⟨fun s f hns h4 h8 hbytes hfc hf => ?echo, fun s hns hlen hbit hreply => ?exception⟩
  case echo =>
    have hsilent := (isSilent_eq_false_iff _ _).mpr hns
    have hlong := (responseTooShort_eq_false_iff _).mpr h4
    have hecho : successEcho s.rxbuf s.txbuf = true :=
      beq_iff_eq.mpr ((hbytes 2 (by decide)).trans hfc)
    have hck : checksumMismatch f = false := (checksumMismatch_eq_false_iff f).mpr hf
    have hshort : frameTooShort s.rxlen = true := (frameTooShort_iff _).mpr h8
    exact ⟨_, _, _, execCls_of_successEcho hsilent hlong hecho, rfl, rfl,
      execDec_of_frameTooShort hshort, rfl, execDec_of_valid rfl hck, rfl, hfc, rfl⟩
  case exception =>
    have hsilent := (isSilent_eq_false_iff _ _).mpr hns
    have hecho : successEcho s.rxbuf s.txbuf = false :=
      beq_eq_false_iff_ne.mpr (hreply ▸ or_kExcFlag_ne hbit)
    exact ⟨_, _, execCls_of_exceptionReply hsilent (by rw [hlen]; rfl) hecho (beq_iff_eq.mpr hreply),
      rfl, rfl, execDec_of_frameTooShort (by rw [hlen]; rfl), rfl⟩

/-- Settles O2: the decoder answers `i` on the word of `i` and on no byte else. -/
theorem decodeAndEncodeAgree : Obligations.DecodeAndEncodeAgree := by
  refine fun i op _ => ⟨fun h => ?_, fun h => h ▸ decode_encode i⟩
  rcases decode_cases op with ⟨j, hop, hj⟩ | ⟨-, hd⟩
  · obtain rfl := Except.ok.inj (h.symm.trans hj)
    exact hop
  · rw [hd] at h
    cases h

end

/-! ## Proofs: register bytes through the host port (10_state.md, 20_memory.md)

A lane register as its four bytes (R57), and a host write at a register's offset, read back at every
offset (R20, R54); then the obligations O20, O22, O23, O19 and O44. -/

namespace Sys2Proof.Machine

variable {s t : State}

/-! ### The bytes of a lane vector (R57) -/

theorem lanes_toNat (l : Lanes) :
    l.toNat = (lanesToBytes l)[0].toNat * 2 ^ 24 + (lanesToBytes l)[1].toNat * 2 ^ 16 +
      (lanesToBytes l)[2].toNat * 2 ^ 8 + (lanesToBytes l)[3].toNat := by
  rw [← be32_toNat]
  exact congrArg BitVec.toNat (bytesToLanes_lanesToBytes l).symm

theorem lanesToBytes_getElem (l : Lanes) (j : Fin 4) :
    (lanesToBytes l)[j.val] = l.extractLsb' (8 * (3 - j.val)) 8 := by
  match j with
  | 0 | 1 | 2 | 3 => rfl

/-! ### A write and the reads after it (R20, R54) -/

theorem step_write {r : Reg} (hr : r ≠ .cmd) {v : Byte} {rest : List HostAccess}
    (h : s.pending = .write r.offset v :: rest) :
    step s = .next (writeReg { s with pending := rest } v r) := by
  rw [step_cons h, perform_write r hr]

/-- The offsets of the read-write rows of R51, RXLEN apart, are those at which the address map finds a
register that stores a byte whole. -/
theorem locate_any_storesByte_iff (o : Offset) :
    (locate o).any Reg.storesByte = true ↔
      o = 0x02 ∨ (0x04 ≤ o.toNat ∧ o.toNat ≤ 0x07) ∨ (0x10 ≤ o.toNat ∧ o.toNat ≤ 0x17) ∨
        (0x24 ≤ o.toNat ∧ o.toNat ≤ 0x27) := by
  revert o; decide

theorem memRead_writeReg_ne (s : State) (v : Byte) (r : Reg) {q : Offset} (hq : q ≠ r.offset) :
    memRead (writeReg s v r) q = memRead s q :=
  memRead_congr fun _ hl => readReg_writeReg_ne s v fun e => hq (e ▸ (offset_of_locate hl).symm)

/-- After the step of a write to a register, its offset reads what `readReg` gives of the register, and
every other offset reads as before. -/
theorem step_write_memRead {r : Reg} (hr : r ≠ .cmd) {v b : Byte} {rest : List HostAccess}
    (h : s.pending = .write r.offset v :: rest)
    (hb : ∀ u : State, readReg (writeReg u v r) r = b) :
    ∃ t, step s = .next t ∧ memRead t r.offset = b ∧
      ∀ q, q ≠ r.offset → memRead t q = memRead s q := by
  refine ⟨_, step_write hr h, ?_, fun q hq => ?_⟩
  · rw [memRead_offset, hb]
  · rw [memRead_writeReg_ne _ _ _ hq, memRead_pending]

end Sys2Proof.Machine

section

open Sys2Proof Sys2Proof.Machine

/-- Settles O20: the four offsets of a lane register read its bytes, most significant first. -/
theorem laneRegistersAreBigEndian : Obligations.LaneRegistersAreBigEndian := fun s =>
  ⟨lanes_toNat s.lanesIn, lanes_toNat s.lanesOut⟩

/-- Settles O22: each offset is that of its register, and the step is `writeReg`. -/
theorem writesStoreIntoRegisters : Obligations.WritesStoreIntoRegisters := by
  intro s o v rest hp
  refine ⟨?fcIn, ?rxlen, ?payloadIn, ?rxbuf, ?lanesIn⟩
  case fcIn => rintro rfl; exact step_write (r := .fcIn) (by decide) hp
  case rxlen => rintro rfl; exact step_write (r := .rxlen) (by decide) hp
  case payloadIn => rintro j rfl; exact step_write (r := .payloadIn j) Reg.noConfusion hp
  case rxbuf => rintro j rfl; exact step_write (r := .rxbuf j) Reg.noConfusion hp
  case lanesIn =>
    rintro j rfl
    exact ⟨setLaneByte s.lanesIn j v, step_write (r := .lanesIn j) Reg.noConfusion hp,
      setLaneByte_getLsbD s.lanesIn j v⟩

/-- Settles O23: the register written reads back, whole or by its low four bits, and a write reaches no
other register. -/
theorem writtenByteReadsBack : Obligations.WrittenByteReadsBack := by
  refine fun s o v rest hp => ⟨fun ho => ?whole, fun ho => ?rxlen⟩
  case whole =>
    obtain ⟨r, hl, hr⟩ := (Option.any_eq_true _ _).mp ((locate_any_storesByte_iff o).mpr ho)
    obtain rfl := offset_of_locate hl
    have hcmd : r ≠ .cmd := by rintro rfl; exact Bool.false_ne_true hr
    exact step_write_memRead hcmd hp fun u => readReg_writeReg_self u v r hr
  case rxlen =>
    subst ho
    exact step_write_memRead (r := .rxlen) (by decide) hp fun u => readReg_writeReg_rxlen u v

/-- Settles O19: each offset reads the register that the address map finds there, a narrow field padded
with zeros. -/
theorem readsFollowAddressMap : Obligations.ReadsFollowAddressMap := fun s =>
  ⟨rfl, BitVec.toNat_setWidth_of_le (b := s.status) (by decide), rfl,
    BitVec.toNat_setWidth_of_le (b := s.rxlen) (by decide),
    fun j => memRead_offset s (.payloadIn j), fun j => memRead_offset s (.txbuf j),
    fun j => memRead_offset s (.rxbuf j), rfl,
    BitVec.toNat_setWidth_of_le (b := s.respLen) (by decide),
    BitVec.toNat_setWidth_of_le (b := s.branchCount) (by decide), rfl, rfl, rfl,
    fun j => memRead_offset s (.rxPayload j),
    fun j => (memRead_offset s (.lanesIn j)).trans (lanesToBytes_getElem s.lanesIn j),
    fun j => (memRead_offset s (.lanesOut j)).trans (lanesToBytes_getElem s.lanesOut j)⟩

/-- Settles O44: `lane_valid` is the mask of the branch count. -/
theorem lanePortsDriven : Obligations.LanePortsDriven := fun s =>
  ⟨rfl, lowmask_getLsbD s.branchCount⟩

end

/-! ## Proofs: lanes and the host's lines (30_encoding.md, 41_channel_vector.md)

The sum that a group mask is (R133), the loading lines and LOOPBACK run on the machine (R87), and the way of
a lane vector through PCK, ENC, LOOPBACK, DEC and UNP (R132); then the obligations O45, O46, O47, O48,
O49, O50 and O51. -/

namespace Sys2Proof.Machine

variable {s t : State}

/-! ### The group mask (R133) -/

/-- An index already in the mask adds nothing to it. -/
theorem twoPow_or_groupMask_of_mem {k : Fin 32} {ks : List (Fin 32)} (hk : k ∈ ks) :
    BitVec.twoPow 32 k.val ||| groupMask ks = groupMask ks := by
  have hset : (groupMask ks).getLsbD k.val = true := by
    rw [groupMask_getLsbD, decide_eq_true hk]
  refine BitVec.eq_of_getLsbD_eq fun j _ => ?_
  rw [BitVec.getLsbD_or, BitVec.getLsbD_twoPow]
  by_cases h : k.val = j
  · rw [← h, hset, Bool.or_true]
  · simp [h]

/-- A new index shares no lane with the mask. -/
theorem twoPow_and_groupMask_of_notMem {k : Fin 32} {ks : List (Fin 32)} (hk : k ∉ ks) :
    BitVec.twoPow 32 k.val &&& groupMask ks = 0#32 := by
  have hclear : (groupMask ks).getLsbD k.val = false := by
    rw [groupMask_getLsbD, decide_eq_false hk]
  rw [BitVec.twoPow_and, hclear, if_neg Bool.false_ne_true]

theorem groupMask_toNat (ks : List (Fin 32)) :
    (groupMask ks).toNat = ∑ k ∈ ks.toFinset, 2 ^ k.val := by
  induction ks with
  | nil => rfl
  | cons k ks ih =>
    rw [groupMask, List.toFinset_cons]
    by_cases hk : k ∈ ks
    · rw [twoPow_or_groupMask_of_mem hk, Finset.insert_eq_of_mem (List.mem_toFinset.mpr hk), ih]
    · have hdisjoint := twoPow_and_groupMask_of_notMem hk
      rw [← BitVec.add_eq_or_of_and_eq_zero _ _ hdisjoint, BitVec.toNat_add_of_and_eq_zero hdisjoint,
        BitVec.toNat_twoPow_of_lt k.isLt, Finset.sum_insert (mt List.mem_toFinset.mp hk), ih]

/-! ### The point payload (R83) -/

theorem pointPayload_duration (tMs : BitVec 24) (i : Byte) :
    (pointPayload tMs i)[0].toNat * 2 ^ 16 + (pointPayload tMs i)[1].toNat * 2 ^ 8 +
      (pointPayload tMs i)[2].toNat = tMs.toNat := by
  have htMs := tMs.isLt
  have h0 : (pointPayload tMs i)[0] = tMs.extractLsb' 16 8 := rfl
  have h1 : (pointPayload tMs i)[1] = tMs.extractLsb' 8 8 := rfl
  have h2 : (pointPayload tMs i)[2] = tMs.extractLsb' 0 8 := rfl
  simp only [h0, h1, h2, BitVec.extractLsb'_toNat, Nat.shiftRight_eq_div_pow]
  omega

/-! ### Loading lines (R87) -/

theorem Payload.set_all (p q : Payload) :
    (((p.set 0 q[0]).set 1 q[1]).set 2 q[2]).set 3 q[3] = q := by
  refine Vector.ext fun j hj => ?_
  interval_cases j <;> simp

theorem Frame.set_all (f g : Frame) :
    (((((((f.set 0 g[0]).set 1 g[1]).set 2 g[2]).set 3 g[3]).set 4 g[4]).set 5 g[5]).set 6
      g[6]).set 7 g[7] = g := by
  refine Vector.ext fun j hj => ?_
  interval_cases j <;> simp

/-- The four bytes of a lane vector, written one after the other, are the vector. -/
theorem setLaneByte_all (l v : Lanes) :
    setLaneByte (setLaneByte (setLaneByte (setLaneByte l 0 (lanesToBytes v)[0]) 1 (lanesToBytes v)[1]) 2
      (lanesToBytes v)[2]) 3 (lanesToBytes v)[3] = v := by
  simp only [setLaneByte, lanesToBytes_bytesToLanes]
  exact (congrArg bytesToLanes (Payload.set_all (lanesToBytes l) (lanesToBytes v))).trans
    (bytesToLanes_lanesToBytes v)

theorem performAll_write {r : Reg} (hr : r ≠ .cmd) (v : Byte) (as : List HostAccess) (s : State) :
    performAll (.write r.offset v :: as) s = performAll as (writeReg s v r) :=
  performAll_cons as (perform_write r hr v s)

theorem runLine_wr32 (v : Lanes) (s : State) : runLine (.wr32 v) s = .next { s with lanesIn := v } := by
  have hall := setLaneByte_all s.lanesIn v
  rw [runLine, HostLine.expand, performAll_write Reg.noConfusion, performAll_write Reg.noConfusion,
    performAll_write Reg.noConfusion, performAll_write Reg.noConfusion, performAll_nil]
  exact congrArg (fun l => Host.Outcome.next { s with lanesIn := l }) hall

theorem runLine_wrpay (p : Payload) (s : State) :
    runLine (.wrpay p) s = .next { s with payloadIn := p } := by
  have hall := Payload.set_all s.payloadIn p
  rw [runLine, HostLine.expand, performAll_write Reg.noConfusion, performAll_write Reg.noConfusion,
    performAll_write Reg.noConfusion, performAll_write Reg.noConfusion, performAll_nil]
  exact congrArg (fun q => Host.Outcome.next { s with payloadIn := q }) hall

/-- RXBUF with the bytes of a list written from index `j` on; those past its end fall away. -/
def writeFrom (j : Nat) : List Byte → Frame → Frame
  | [], f => f
  | b :: bs, f => writeFrom (j + 1) bs (f.setIfInBounds j b)

theorem writeFrom_getElem (bs : List Byte) (j : Nat) (f : Frame) (i : Nat) (hi : i < 8) :
    (writeFrom j bs f)[i] = if i < j then f[i] else bs.getD (i - j) f[i] := by
  induction bs generalizing j f with
  | nil => simp [writeFrom]
  | cons b bs ih =>
    rw [writeFrom, ih, Vector.getElem_setIfInBounds]
    rcases Nat.lt_trichotomy i j with h | rfl | h
    · simp [h, Nat.lt_succ_of_lt h, Nat.ne_of_gt h]
    · simp
    · obtain ⟨d, rfl⟩ := Nat.exists_eq_add_of_lt h
      have hsub : j + d + 1 - j = d + 1 := by omega
      have hsub' : j + d + 1 - (j + 1) = d := by omega
      rw [if_neg (by omega), if_neg (by omega), if_neg (by omega), hsub, hsub', List.getD_cons_succ]

theorem performAll_rxWrites (bs : List Byte) (j : Nat) (hj : j + bs.length ≤ 8)
    (as : List HostAccess) (s : State) :
    performAll (rxWrites j bs ++ as) s = performAll as { s with rxbuf := writeFrom j bs s.rxbuf } := by
  induction bs generalizing j s with
  | nil => rfl
  | cons b bs ih =>
    rw [List.length_cons] at hj
    have hset : s.rxbuf.set j b (by omega) = s.rxbuf.setIfInBounds j b :=
      Vector.ext fun i hi => by rw [Vector.getElem_set, Vector.getElem_setIfInBounds]
    have hwrite : performAll (rxWrites j (b :: bs) ++ as) s =
        performAll (rxWrites (j + 1) bs ++ as) { s with rxbuf := s.rxbuf.setIfInBounds j b } := by
      rw [← hset]
      exact performAll_write (r := .rxbuf ⟨j, by omega⟩) Reg.noConfusion b _ s
    rw [hwrite, ih (j + 1) (by omega), writeFrom]

theorem runLine_wrrx (bs : List Byte) (h : bs.length ≤ 8) (s : State) :
    runLine (.wrrx bs) s = .next { s with
      rxbuf := writeFrom 0 bs s.rxbuf, rxlen := (BitVec.ofNat 8 bs.length).setWidth 4 } := by
  rw [runLine, HostLine.expand, performAll_rxWrites bs 0 (by omega), performAll_write Reg.noConfusion,
    performAll_nil]
  rfl

theorem setWidth_ofNat_toNat_of_le {n : Nat} (hn : n ≤ 8) :
    ((BitVec.ofNat 8 n).setWidth 4).toNat = n := by
  rw [BitVec.toNat_setWidth, BitVec.toNat_ofNat]
  omega

/-! ### LOOPBACK (R87) -/

theorem runLine_loopback (s : State) : runLine .loopback s =
    .next { s with rxbuf := s.txbuf, rxlen := 8, lastRead := some s.txbuf[7] } := by
  have hall := Frame.set_all s.rxbuf s.txbuf
  have hcopy (j : Fin 8) (as : List HostAccess) {u : State} (hu : u.txbuf = s.txbuf) :
      performAll (copyTx s.txbuf j ++ as) u =
        performAll as { u with lastRead := some s.txbuf[j.val], rxbuf := u.rxbuf.set j s.txbuf[j.val] } :=
    performAll_copyTx j s.txbuf as u hu
  simp only [runLine, HostLine.expand, List.append_assoc, hcopy]
  rw [performAll_write Reg.noConfusion, performAll_nil]
  exact congrArg (fun f => Host.Outcome.next { s with
    rxbuf := f, rxlen := 8, lastRead := some s.txbuf[7] }) hall

/-! ### A lane vector's way through the codec (R132) -/

/-- The five lines of R132's bijection. -/
def packingLines : List HostLine :=
  [.command .pck, .command .enc, .loopback, .command .dec, .command .unp]

theorem runLine_command_next (i : Instr) (h : exec i s = .next t) :
    runLine (.command i) s = .next t :=
  (runLine_command i s).trans h

/-- The frame that ENC builds of the packed vector. -/
def packedFrame (s : State) : Frame :=
  mkFrame s.header s.slaveId s.fcIn (lanesToBytes s.lanesIn)

/-- DEC takes from the packed frame what ENC put into it. -/
theorem execDec_of_packedFrame (hlen : t.rxlen = 8) (hrx : t.rxbuf = packedFrame s) :
    execDec t = .next { t with
      rxFc := s.fcIn, rxPayload := lanesToBytes s.lanesIn, status := StatusCode.ok } := by
  have hlong : frameTooShort t.rxlen = false := by rw [hlen]; rfl
  have hvalid : checksumMismatch t.rxbuf = false := by rw [hrx]; exact mkFrame_valid ..
  rw [execDec_of_valid hlong hvalid, hrx, packedFrame, framePayload_mkFrame, mkFrame_fc]

/-- UNP's mask takes nothing from a vector that PCK accepts. -/
theorem execUnp_of_lanesToBytes {l : Lanes} (hp : t.rxPayload = lanesToBytes l)
    (h : channelOutOfRange l t.branchCount = false) :
    execUnp t = .next { t with lanesOut := l, status := StatusCode.ok } := by
  rw [execUnp, hp, bytesToLanes_lanesToBytes,
    and_lowmask_eq l t.branchCount ((channelOutOfRange_eq_false_iff _ _).mp h)]
  rfl

/-- The state after the first three lines: the packed frame is in both buffers. -/
def State.packedAndLooped (s : State) : State :=
  { s with
    payloadIn := lanesToBytes s.lanesIn
    txbuf := packedFrame s
    rxbuf := packedFrame s
    rxlen := 8
    lastRead := some (packedFrame s)[7]
    status := StatusCode.ok }

/-- A vector that PCK accepts comes back on LANES_OUT. -/
theorem runLines_packing (h : channelOutOfRange s.lanesIn s.branchCount = false) :
    runLines packingLines s = .next { s.packedAndLooped with
      rxFc := s.fcIn, rxPayload := lanesToBytes s.lanesIn, lanesOut := s.lanesIn } := by
  have hpck : exec .pck s =
      .next { s with payloadIn := lanesToBytes s.lanesIn, status := StatusCode.ok } :=
    execPck_of_inRange h
  have henc : exec .enc { s with payloadIn := lanesToBytes s.lanesIn, status := StatusCode.ok } =
      .next { s with
        payloadIn := lanesToBytes s.lanesIn, txbuf := packedFrame s, status := StatusCode.ok } := rfl
  have hloopback : runLine .loopback { s with
        payloadIn := lanesToBytes s.lanesIn, txbuf := packedFrame s, status := StatusCode.ok } =
      .next s.packedAndLooped := runLine_loopback _
  have hdec : exec .dec s.packedAndLooped = .next { s.packedAndLooped with
      rxFc := s.fcIn, rxPayload := lanesToBytes s.lanesIn } := execDec_of_packedFrame rfl rfl
  have hunp : exec .unp { s.packedAndLooped with
        rxFc := s.fcIn, rxPayload := lanesToBytes s.lanesIn } =
      .next { s.packedAndLooped with
        rxFc := s.fcIn, rxPayload := lanesToBytes s.lanesIn, lanesOut := s.lanesIn } :=
    execUnp_of_lanesToBytes rfl h
  rw [packingLines, runLines_cons _ (runLine_command_next .pck hpck),
    runLines_cons _ (runLine_command_next .enc henc), runLines_cons _ hloopback,
    runLines_cons _ (runLine_command_next .dec hdec),
    runLines_cons _ (runLine_command_next .unp hunp), runLines_nil]

/-! ### BST (R87) -/

theorem runLine_bst (code : Nibble) (label : Nat) (s : State) :
    runLine (.bst code label) s = .next { s with lastRead := some (s.status.setWidth 8) } := by
  rw [runLine, HostLine.expand, performAll_cons _ (perform_read .status s), performAll_nil, readReg]

theorem nextLine_bst {b : Byte} (ht : t.lastRead = some b) (pc : Nat) (code : Nibble) (label : Nat) :
    HostLine.nextLine pc t (.bst code label) =
      if b.setWidth 4 = code then some label else some (pc + 1) := by
  simp [HostLine.nextLine, ht]

end Sys2Proof.Machine

section

open Sys2Proof Sys2Proof.Machine

/-- Settles O45: UNP's mask keeps the lane of a channel that exists. -/
theorem channelReadsItsBit : Obligations.ChannelReadsItsBit := by
  intro s i hi hbranch
  obtain ⟨t, h⟩ := exec_next .unp s
  obtain rfl := execUnp_next h
  have hlane : i - 1 < s.branchCount.toNat := by omega
  have hbit := bytesToLanes_and_lowmask_getLsbD s.rxPayload s.branchCount (i - 1) (by omega)
  rw [decide_eq_true hlane, Bool.true_and] at hbit
  exact ⟨_, h, hbit, rfl⟩

/-- Settles O46: 32 branches allow every vector, and a lane at or above BRANCH_COUNT is what PCK's check
finds. -/
theorem packingBijection : Obligations.PackingBijection := by
  refine ⟨fun s hclear => ?accepted, fun s h32 => ?all, fun s k hk hn hset => ?refused⟩
  case accepted =>
    exact ⟨_, runLines_packing ((channelOutOfRange_eq_false_iff _ _).mpr hclear), rfl, rfl⟩
  case all =>
    have hrange : channelOutOfRange s.lanesIn s.branchCount = false :=
      (channelOutOfRange_eq_false_iff _ _).mpr fun k hk hn => absurd hk (by omega)
    exact ⟨_, runLines_packing hrange, rfl, rfl⟩
  case refused => exact execPck_of_channelOutOfRange ((channelOutOfRange_iff _ _).mpr ⟨k, hk, hn, hset⟩)

/-- Settles O47: the lanes of the mask are its indices, so PCK's check looks at the indices. -/
theorem groupMaskPacks : Obligations.GroupMaskPacks := by
  refine ⟨groupMask_toNat, fun s ks hl => ⟨fun hbelow => ?packs, fun habove => ?refused⟩, by decide⟩
  case packs =>
    have hrange : channelOutOfRange s.lanesIn s.branchCount = false := by
      rw [channelOutOfRange_eq_false_iff]
      intro k hk hn
      have hbit := groupMask_getLsbD ks ⟨k, hk⟩
      rw [hl]
      exact hbit.trans (decide_eq_false fun hmem => absurd (hbelow _ hmem) (Nat.not_lt.mpr hn))
    refine ⟨_, execPck_of_inRange hrange, rfl, fun j => ?_⟩
    exact (lanesToBytes_getLsbD s.lanesIn j.val j.isLt).trans (hl ▸ groupMask_getLsbD ks j)
  case refused =>
    obtain ⟨k, hmem, hn⟩ := habove
    have hbit : s.lanesIn.getLsbD k.val = true := by
      rw [hl, groupMask_getLsbD, decide_eq_true hmem]
    exact execPck_of_channelOutOfRange ((channelOutOfRange_iff _ _).mpr ⟨k.val, k.isLt, hn, hbit⟩)

/-- Settles O48: ENC copies the payload to frame bytes 3 to 6. -/
theorem pointPayloadOnTheWire : Obligations.PointPayloadOnTheWire := by
  intro s tMs i hp
  refine ⟨_, rfl, rfl, ?duration, ?channel⟩
  case duration => rw [← pointPayload_duration tMs i, ← hp]; rfl
  case channel => exact congrArg (fun p : Payload => p[3]) hp

/-- Settles O49: the outcome of each line, and for WRRX the byte that ends up at each index. -/
theorem loadLinesLoadRegisters : Obligations.LoadLinesLoadRegisters :=
  ⟨fun s v => runLine_wr32 v s, fun s p => runLine_wrpay p s, fun s bs h =>
    ⟨_, runLine_wrrx bs h s, rfl, setWidth_ofNat_toNat_of_le h,
      fun j => writeFrom_getElem bs 0 s.rxbuf j.val j.isLt⟩⟩

/-- Settles O50: eight copied bytes and a write to RXLEN. -/
theorem loopbackCopiesTxbuf : Obligations.LoopbackCopiesTxbuf := runLine_loopback

/-- Settles O51: the byte read is STATUS padded with zeros, whose bits 3:0 are the code. -/
theorem branchOnStatus : Obligations.BranchOnStatus := by
  intro s code label pc
  have hcode : (s.status.setWidth 8).setWidth 4 = s.status := by simp
  refine ⟨_, runLine_bst code label s, rfl, fun h => ?taken, fun h => ?notTaken⟩
  case taken => rw [nextLine_bst rfl, hcode, if_pos h]
  case notTaken => rw [nextLine_bst rfl, hcode, if_neg h]

end
